-- ==== Sys2Proof/Syntax.lean ====
section
/-!
DEFINITION. The instructions, one constructor per row of spec/opcode_table.json (rule R87).

Rule R31: a decoded instruction is an opcode and mode digits. The parameters are cells of memory that the
instruction takes from the tape while it executes (rule R111), so they are no part of it. A constructor
carries exactly the mode digits its row uses; digits that belong to no parameter are ignored (rule R90).
-/

namespace Sys2Proof

/-- A decimal digit of the instruction word. A mode field ranges over 0 to 9 (90_conflicts.md C10). -/
abbrev Digit := Fin 10

/-- The instruction set: "a fixed, closed instruction set" of ten (rule R87). -/
inductive Instr where
  /-- Opcode 1, ADD. -/
  | add (m1 m2 m3 : Digit)
  /-- Opcode 2, MUL. -/
  | mul (m1 m2 m3 : Digit)
  /-- Opcode 3, IN. -/
  | inp (m1 : Digit)
  /-- Opcode 4, OUT. -/
  | out (m1 : Digit)
  /-- Opcode 5, JT. -/
  | jt (m1 m2 : Digit)
  /-- Opcode 6, JF. -/
  | jf (m1 m2 : Digit)
  /-- Opcode 7, LT. -/
  | lt (m1 m2 m3 : Digit)
  /-- Opcode 8, EQ. -/
  | eq (m1 m2 m3 : Digit)
  /-- Opcode 9, ARB. -/
  | arb (m1 : Digit)
  /-- Opcode 99, HALT. -/
  | halt
deriving DecidableEq, Repr

end Sys2Proof
end

