-- ==== Sys2Proof/WellFormed.lean ====
section
/-!
DEFINITION. Well-formed instructions: every mode digit is one its parameter's role accepts (rules R86, R89).

An ill-formed instruction still decodes and still executes: rule R89 makes a mode digit illegal by use, and
its use raises UnrecognizedParameterMode.
-/

namespace Sys2Proof

/-- "A source parameter accepts digits 0, 1, 2" (rule R89). -/
def sourceMode (m : Digit) : Bool := m.val ≤ 2

/-- "A destination parameter accepts 0 and 2" (rule R89). -/
def destinationMode (m : Digit) : Bool := m.val = 0 || m.val = 2

/-- Every used mode digit is legal for its role (the `legal_modes` of spec/opcode_table.json). -/
def Instr.wellFormed : Instr → Bool
  | .add m1 m2 m3 => sourceMode m1 && sourceMode m2 && destinationMode m3
  | .mul m1 m2 m3 => sourceMode m1 && sourceMode m2 && destinationMode m3
  | .inp m1 => destinationMode m1
  | .out m1 => sourceMode m1
  | .jt m1 m2 => sourceMode m1 && sourceMode m2
  | .jf m1 m2 => sourceMode m1 && sourceMode m2
  | .lt m1 m2 m3 => sourceMode m1 && sourceMode m2 && destinationMode m3
  | .eq m1 m2 m3 => sourceMode m1 && sourceMode m2 && destinationMode m3
  | .arb m1 => sourceMode m1
  | .halt => true

end Sys2Proof
end

