-- ==== Sys2Proof/Word.lean ====
section
/-!
DEFINITION. The word of the machine: one memory cell, one register, one channel item.

Rule R6: a cell holds a signed 64-bit integer. The integer a word `v` denotes is `v.toInt`; the bits are two's
complement, which rule R6 uses wherever bits are needed.
-/

namespace Sys2Proof

/-- One signed 64-bit integer, a member of `i64` (rules R5, R6). -/
abbrev Word := BitVec 64

end Sys2Proof
end

