-- ==== Sys2Proof/Decode.lean ====
section
/-!
DEFINITION. The decoder, total on every word, and after it the encoder.

The instruction word is split by decimal digits (rules R7, R81, R82). The decoder also makes the dispatch's
choice (rule R110): a word that is no instruction is rejected with the payload of UnrecognizedOpcode
(rules R83, R88, R193). It never looks at whether a mode digit is legal (rule R82).
-/

namespace Sys2Proof

/-- Why a word is no instruction. -/
inductive DecodeError where
  /-- The opcode field is not 1 .. 9 or 99, or the word is negative (rules R83, R88). -/
  | unrecognizedOpcode (digits : Int)
deriving DecidableEq, Repr

/-- `digit(w, k)`, the decimal digit of weight `10^k` of a word that is not negative (rule R7). -/
def digit (w k : Nat) : Digit := ⟨w / 10 ^ k % 10, Nat.mod_lt _ (by decide)⟩

/-- `trem(w, n)`, the remainder of division rounded toward zero (rule R7). -/
def trem (w n : Int) : Int := w.tmod n

/-- The opcode map of rule R87, on a word that is not negative: opcode in the two low digits, `m1`, `m2`, `m3`
above it, any further digits ignored (rules R82, R84). -/
def decodeNat (w : Nat) : Except DecodeError Instr :=
  match w % 100 with
  | 1 => .ok (.add (digit w 2) (digit w 3) (digit w 4))
  | 2 => .ok (.mul (digit w 2) (digit w 3) (digit w 4))
  | 3 => .ok (.inp (digit w 2))
  | 4 => .ok (.out (digit w 2))
  | 5 => .ok (.jt (digit w 2) (digit w 3))
  | 6 => .ok (.jf (digit w 2) (digit w 3))
  | 7 => .ok (.lt (digit w 2) (digit w 3) (digit w 4))
  | 8 => .ok (.eq (digit w 2) (digit w 3) (digit w 4))
  | 9 => .ok (.arb (digit w 2))
  | 99 => .ok .halt
  | op => .error (.unrecognizedOpcode op)

/-- The decoder: a negative word is never an instruction (rule R83; notes/assumptions/10.md). -/
def decode (w : Word) : Except DecodeError Instr :=
  if w.toInt < 0 then .error (.unrecognizedOpcode (trem w.toInt 100)) else decodeNat w.toInt.toNat

/-- The four cells, first one first, of an instruction whose bits are `w`, numbered from the least significant
bit of the first cell; every bit from `nbits` on is 0. Four cells are the longest instruction (rule R92). -/
def instructionCells (nbits w : Nat) : List Word :=
  let bits := w % 2 ^ nbits
  [BitVec.ofNat 64 bits, BitVec.ofNat 64 (bits / 2 ^ 64), BitVec.ofNat 64 (bits / 2 ^ 128),
    BitVec.ofNat 64 (bits / 2 ^ 192)]

/-- The instruction the decoder reads from an instruction whose bits are `w`: it reads the first cell. -/
def decodeTableWord (nbits w : Nat) : Option Instr :=
  match instructionCells nbits w with
  | cell :: _ =>
    match decode cell with
    | .ok i => some i
    | .error _ => none
  | [] => none

/-- The opcode of an instruction (rule R87). -/
def Instr.opcode : Instr → Nat
  | .add _ _ _ => 1
  | .mul _ _ _ => 2
  | .inp _ => 3
  | .out _ => 4
  | .jt _ _ => 5
  | .jf _ _ => 6
  | .lt _ _ _ => 7
  | .eq _ _ _ => 8
  | .arb _ => 9
  | .halt => 99

/-- The mode digits an instruction uses, parameter 1 first; one per parameter (rule R85). -/
def Instr.modes : Instr → List Digit
  | .add m1 m2 m3 => [m1, m2, m3]
  | .mul m1 m2 m3 => [m1, m2, m3]
  | .inp m1 => [m1]
  | .out m1 => [m1]
  | .jt m1 m2 => [m1, m2]
  | .jf m1 m2 => [m1, m2]
  | .lt m1 m2 m3 => [m1, m2, m3]
  | .eq m1 m2 m3 => [m1, m2, m3]
  | .arb m1 => [m1]
  | .halt => []

/-- The length of an instruction in cells, "one more than its number of parameters" (rule R85). -/
def Instr.cells (i : Instr) : Nat := i.modes.length + 1

/-- The value of mode digits written upward from the hundreds digit. -/
def modesValue : List Digit → Nat
  | [] => 0
  | m :: ms => m.val + 10 * modesValue ms

/-- The encoder: the canonical instruction word `opcode + 100*m1 + 1000*m2 + 10000*m3`, unused digits 0
(rule R93). -/
def encode (i : Instr) : Word := BitVec.ofNat 64 (i.opcode + 100 * modesValue i.modes)

end Sys2Proof
end

