-- ==== Sys2Proof/Config.lean ====
section
/-!
DEFINITION. The parameters of the hardware that rule R5 leaves open and "a model takes as an argument".

They are plain data. `Machine.State` holds one `Config` in its field `cfg`, which no step writes
(notes/assumptions/1.md), so every claim over all states is a claim over all values of the parameters.
There is no free value here: no result of an instruction is undefined.
-/

namespace Sys2Proof

/-- `OVF_MODE` (rules R5, R132, R133): what ADD, MUL and ARB do when the exact result is outside `i64`. -/
inductive OvfMode where
  | wrap
  | refuse
deriving DecidableEq, Repr

/-- `IN_CAP`, `OUT_CAP` (rule R5): the capacity of the queue behind a port, in items. -/
inductive Capacity where
  | unbounded
  | items (n : Nat)
deriving DecidableEq, Repr

/-- Whether a queue that holds `n` items has room for one more (rule R143). -/
def Capacity.hasRoom : Capacity → Nat → Bool
  | .unbounded, _ => true
  | .items c, n => n < c

/-- A capacity is "a positive integer or `unbounded`" (rule R5). -/
def Capacity.legal : Capacity → Bool
  | .unbounded => true
  | .items c => 0 < c

/-- Whether a queue of `n` items is within the capacity. -/
def Capacity.admits : Capacity → Nat → Bool
  | .unbounded, _ => true
  | .items c, n => n ≤ c

/-- The open parameters of rule R5. -/
structure Config where
  /-- `ADDR_MAX`, the greatest valid address: `0 <= ADDR_MAX <= 2^63-1`. -/
  addrMax : Fin (2 ^ 63)
  ovfMode : OvfMode
  inCap : Capacity
  outCap : Capacity
  /-- `CRLF_OK`, a parameter of the loader. -/
  crlfOk : Bool
deriving DecidableEq, Repr

/-- The defaults rule R5 gives. -/
def Config.standard : Config where
  addrMax := ⟨2 ^ 63 - 1, by decide⟩
  ovfMode := .wrap
  inCap := .unbounded
  outCap := .unbounded
  crlfOk := false

/-- The parameters are in the ranges of rule R5 (the range of `addrMax` is in its type). -/
def Config.legal (c : Config) : Bool := c.inCap.legal && c.outCap.legal

end Sys2Proof
end

