-- ==== Sys2Proof/Machine/State.lean ====
section
/-!
DEFINITION. The state of the machine, as plain data, and its value after reset.

The first group of fields is the state rule R20 gives one CORE. The others are the model's own: the parameters
(rule R5), the environment behind the two ports (rule R31 (a)), and the order in which the agents move
(notes/assumptions/1.md, 4.md, 5.md).
-/

namespace Sys2Proof.Machine

/-- Memory: the cells that do not hold 0, as (address, value) pairs (rules R29, R50).
Its canonical form is `Memory.wf` in Machine/Ops.lean: addresses strictly rising, no value 0. -/
abbrev Memory := List (Nat × Word)

/-- `STATE`, the run state of the engine (rule R26). -/
inductive RunState where
  | ready
  | running
  | halted
  | faulted
deriving DecidableEq, Repr

/-- The codes of rule R26. -/
def RunState.code : RunState → Nat
  | .ready => 0
  | .running => 1
  | .halted => 2
  | .faulted => 3

/-- `CAUSE`, the kind of a run-time fault: the closed set of rule R191. -/
inductive Cause where
  | outOfBounds
  | unrecognizedOpcode
  | unrecognizedParameterMode
  | inputError
  | outputError
deriving DecidableEq, Repr

/-- The codes of rule R191; code 0 is ParseError, which never appears in `CAUSE`. -/
def Cause.code : Cause → Nat
  | .outOfBounds => 1
  | .unrecognizedOpcode => 2
  | .unrecognizedParameterMode => 3
  | .inputError => 4
  | .outputError => 5

/-- Whether the source attaches a payload to the kind (rule R27). -/
def Cause.hasPayload : Cause → Bool
  | .outOfBounds => true
  | .unrecognizedOpcode => true
  | .unrecognizedParameterMode => true
  | .inputError => false
  | .outputError => false

/-- A line read on the console: an integer, or a failure to read or parse (rule R146). -/
inductive ConsoleLine where
  | value (v : Word)
  | failure
deriving DecidableEq, Repr

/-- What a host operation returns to the host (rules R66, R234). -/
inductive HostReply where
  /-- `get` returns the cell. -/
  | value (v : Word)
  /-- `set`, `bindInput` and `bindOutput` return nothing. -/
  | done
  /-- `get` or `set` with an invalid address returns the error OutOfBounds(address). -/
  | outOfBounds (a : Int)
deriving DecidableEq, Repr

/-- The operations of the host on an instance (rule R234). `load` makes the instance and is in
Machine/Loader.lean. -/
inductive HostOp where
  | get (a : Word)
  | set (a v : Word)
  | bindInput
  | bindOutput
  | run
deriving DecidableEq, Repr

/-- The moves of the environment behind the ports (rules R142, R143, R146, R148, R151). -/
inductive EnvMove where
  /-- A sender appends an item to the input channel. -/
  | send (v : Word)
  /-- A sender of the input channel is cloned. -/
  | cloneSender
  /-- A sender of the input channel goes away. -/
  | dropSender
  /-- The receiver removes the oldest item of the output channel. -/
  | receive
  /-- The receiver of the output channel goes away. -/
  | dropReceiver
  /-- A sender of the output channel that is not the engine's appends an item: a seed, or an item of a cloned
  sender. -/
  | sendOut (v : Word)
  /-- A sender of the output channel is cloned, and the clone is not the engine's. -/
  | cloneOutSender
  /-- A sender of the output channel that is not the engine's goes away. -/
  | dropOutSender
  /-- The host removes the oldest item of the input channel, while the receiver is not with a live engine. -/
  | receiveIn
  /-- The console has read a line, or failed to. -/
  | consoleLine (l : ConsoleLine)
deriving DecidableEq, Repr

/-- One move of one agent. -/
inductive Move where
  /-- The engine takes one turn. -/
  | engine
  | host (op : HostOp)
  | environment (e : EnvMove)
deriving DecidableEq, Repr

/-- The state of one CORE, with its parameters and its environment. -/
structure State where
  /-- The program counter, the next fetch address (rule R22). -/
  pc : Word
  /-- The relative base (rule R24). -/
  rb : Word
  /-- `M` (rule R29). -/
  mem : Memory
  /-- `LEN`, the hidden length of the backing sequence (rule R30). -/
  len : Nat
  /-- `STATE` (rule R26). -/
  run : RunState
  /-- `CAUSE` (rule R27): no value unless faulted. -/
  cause : Option Cause
  /-- `INFO` (rule R27), the exact integer: no value unless faulted with a kind that has a payload. -/
  info : Option Int
  /-- `IN_BOUND` (rule R28). -/
  inBound : Bool
  /-- `OUT_BOUND` (rule R28). -/
  outBound : Bool
  /-- The parameters (rule R5). -/
  cfg : Config
  /-- `IQ`, the queue of the input channel, oldest item first (rule R142). -/
  inQueue : List Word
  /-- The number of live senders of the input channel (rule R142). -/
  inSenders : Nat
  /-- `OQ`, the queue of the output channel, oldest item first (rule R143). -/
  outQueue : List Word
  /-- Whether the receiver of the output channel is alive (rule R143). -/
  outReceiver : Bool
  /-- The number of live senders of the output channel besides the one that is bound, or is to be bound, to this
  engine (rule R148). -/
  outSenders : Nat
  /-- Console lines not yet taken, oldest first (rule R146). -/
  consoleIn : List ConsoleLine
  /-- Values printed on the console, oldest first (rule R147). -/
  consoleOut : List Word
  /-- What host operations returned, oldest first. -/
  replies : List HostReply
  /-- The moves still to be made before the engine goes on by itself, next one first. -/
  agenda : List Move
deriving DecidableEq, Repr

/-- The machine right after reset, with no program loaded: rule R34 for every field the spec gives a reset value,
the parameters at the defaults of rule R5, and for the rest the values named in notes/assumptions/2.md, 4.md, 5.md.
`State.load` in Machine/Loader.lean is the reset of rule R34 with a program image. -/
def State.reset : State where
  pc := 0
  rb := 0
  mem := []
  len := 0
  run := .ready
  cause := none
  info := none
  inBound := false
  outBound := false
  cfg := Config.standard
  inQueue := []
  inSenders := 1
  outQueue := []
  outReceiver := true
  outSenders := 0
  consoleIn := []
  consoleOut := []
  replies := []
  agenda := []

/-- The ways the machine can stop outside its own fault mechanism: there is none. Every fault of rule R191 is
taken by `raise` (rule R200), which gives a next state with `STATE = Faulted`; so no step of this machine
answers `fault`, and no definition raises one (notes/assumptions/17.md). Safe: nothing is proved from it but
that it does not happen. -/
inductive Fault where
deriving DecidableEq, Repr

/-- The situations to which the spec gives no meaning; "a model gives them no step and marks the run refused"
(rule R216). None changes the state. -/
inductive Refusal where
  /-- An instruction of the opcode table without a meaning yet. Raised by no arm of `exec`: all ten are modelled. Safe. -/
  | notModelled (mnemonic : String)
  /-- ADD, MUL or ARB with `OVF_MODE = refuse` and an exact result outside `i64` (rules R132, R133, R216 (a)).
  Raised by `narrow`. Safe. -/
  | resultOutsideI64 (exact : Int)
  /-- Host `get` or `set` while `STATE = Running` (rules R66, R216 (b)). Raised by `hostGet`, `hostSet`. Safe. -/
  | hostAccessWhileRunning
  /-- `bindInput` or `bindOutput` in any state but Ready (rules R28, R216 (b)). Raised by `hostBindInput`,
  `hostBindOutput`. Safe. -/
  | bindOutsideReady
  /-- A second bind of one port (rules R28, R216 (b)). Raised by `hostBindInput`, `hostBindOutput`. Safe. -/
  | portAlreadyBound
  /-- `run` on an instance that is not Ready (rules R216 (b), R236). Raised by `hostRun`. Safe. -/
  | runOutsideReady
  /-- The agenda names an environment move that cannot be made: a send or clone by a sender that is gone or is the
  engine's, a send to a full channel or to a receiver that is gone, a drop of what is gone, a receive from an empty
  channel, by a receiver that is gone, or by the host while the engine has the receiver.
  Raised by `environmentMove`; the model's own (notes/assumptions/6.md). Safe. -/
  | environmentMoveImpossible
deriving DecidableEq, Repr

end Sys2Proof.Machine
end

