-- ==== Sys2Proof/Machine/Ops.lean ====
section
/-!
DEFINITION. The named operations over memory, the program counter and the fault record: the primitives of rule R10.

An operation is a `Flow`: it completes with a value, or has taken a fault, or holds, or is refused.
-/

namespace Sys2Proof.Machine

/-! ## Memory (rules R29, R50 to R54) -/

/-- What a cell that was never written holds: "a cell that has never been written ... holds 0" (rule R29). -/
def Memory.unlisted : Word := 0

/-- The cell at an address. -/
def Memory.read : Memory → Nat → Word
  | [], _ => Memory.unlisted
  | (b, v) :: rest, a => if b = a then v else Memory.read rest a

/-- Replace the cell at an address, keeping the canonical form. -/
def Memory.write : Memory → Nat → Word → Memory
  | [], a, v => if v = Memory.unlisted then [] else [(a, v)]
  | (b, w) :: rest, a, v =>
    if a < b then (if v = Memory.unlisted then (b, w) :: rest else (a, v) :: (b, w) :: rest)
    else if a = b then (if v = Memory.unlisted then rest else (a, v) :: rest)
    else (b, w) :: Memory.write rest a v

/-- The canonical form: addresses strictly rising, and no entry equal to what an unlisted address reads as. -/
def Memory.wf : Memory → Bool
  | [] => true
  | (a, v) :: rest => decide (v ≠ Memory.unlisted) && rest.all (fun c => decide (a < c.1)) && Memory.wf rest

/-- Write consecutive cells from an address on. -/
def placeCells : Nat → List Word → Memory → Memory
  | _, [], m => m
  | a, v :: vs, m => placeCells (a + 1) vs (m.write a v)

/-! ## The outcome of an operation -/

/-- How an operation ends. -/
inductive Flow (α : Type) where
  /-- It completes with a value and leaves a state. -/
  | done (a : α) (s : State)
  /-- It has taken a fault, and the instruction ends in this state (rule R200). -/
  | raised (s : State)
  /-- The step is not enabled: no state changes (rules R10, R150). -/
  | held
  /-- It has no meaning (rule R216). -/
  | refused (r : Refusal)

/-- "Pseudocode statements execute in the order written; a `raise` ends the instruction at once" (rule R10). -/
def Flow.bind {α β : Type} (x : Flow α) (f : α → State → Flow β) : Flow β :=
  match x with
  | .done a s => f a s
  | .raised s => .raised s
  | .held => .held
  | .refused r => .refused r

/-- The outcome of a whole instruction that began in `start`. A held instruction does not execute: the state is
what it was when the previous instruction completed (rule R150; notes/assumptions/14.md). -/
def Flow.outcome (start : State) (x : Flow Unit) : Host.Outcome State Fault Refusal :=
  match x with
  | .done _ s => .next s
  | .raised s => .next s
  | .held => .next start
  | .refused r => .refused r

/-! ## Taking a fault (rule R200) -/

/-- `raise K(info)`: `STATE <- Faulted`, `CAUSE <- K`, `INFO <- info`, and nothing else (rule R200).
There is no handler and no return from a fault (rule R202). -/
def raise (k : Cause) (info : Option Int) (s : State) : State :=
  { s with run := .faulted, cause := some k, info := info }

/-! ## Addresses and accesses (rules R51 to R53) -/

/-- An address is valid iff `0 <= a <= ADDR_MAX` (rule R51). -/
def validAddress (cfg : Config) (a : Int) : Bool := decide (0 ≤ a) && decide (a ≤ cfg.addrMax.val)

/-- The length of the backing sequence after an access at `a`: `if a >= LEN then LEN <- a + 1` (rule R30). -/
def extend (len : Nat) (a : Int) : Nat := max len (a.toNat + 1)

/-- The cell at an address that has been checked. -/
def State.cell (s : State) (a : Int) : Word := s.mem.read a.toNat

/-- `CheckAddr(a)` (rule R51). -/
def checkAddr (a : Int) (s : State) : Flow Unit :=
  if validAddress s.cfg a then .done () s else .raised (raise .outOfBounds (some a) s)

/-- `MemRead(a, 1)` (rule R52). -/
def memRead (a : Int) (s : State) : Flow Word :=
  (checkAddr a s).bind fun _ s => .done (s.cell a) { s with len := extend s.len a }

/-- `MemWrite(a, 1, v)` (rule R53). -/
def memWrite (a : Int) (v : Word) (s : State) : Flow Unit :=
  (checkAddr a s).bind fun _ s => .done () { s with len := extend s.len a, mem := s.mem.write a.toNat v }

/-! ## The immediate read and the jump (rules R111, R162) -/

/-- `Next()`: read the cell at `pc` and advance `pc` by one, or raise OutOfBounds where `pc + 1`, as an integer,
exceeds `ADDR_MAX` (rules R23, R111; notes/assumptions/9.md). -/
def nextCell (s : State) : Flow Word :=
  (memRead s.pc.toInt s).bind fun v s =>
    if s.pc.toInt + 1 > s.cfg.addrMax.val then .raised (raise .outOfBounds (some (s.pc.toInt + 1)) s)
    else .done v { s with pc := s.pc + 1 }

/-- The write of `pc` by a taken jump: the target is checked as an address, and its cell is not read (rule R162). -/
def jumpTo (target : Word) (s : State) : Flow Unit :=
  (checkAddr target.toInt s).bind fun _ s => .done () { s with pc := target }

/-- An instruction: its word is consumed, then its body runs (rule R110). The state it starts from is the one in
which `pc` addresses its word (notes/assumptions/23.md). -/
def instruction (body : State → Flow Unit) (s : State) : Host.Outcome State Fault Refusal :=
  ((nextCell s).bind fun _ s => body s).outcome s

end Sys2Proof.Machine
end

