-- ==== Sys2Proof/Machine/Flags.lean ====
section
/-!
DEFINITION. What stands in this machine where another has flags.

There are no flags, condition codes or predicates (rule R25). A comparison writes a truth value to a cell and a
jump tests a value against 0 (rule R172); a result outside `i64` leaves no trace in any state and is narrowed
as `OVF_MODE` says (rules R132, R133).
-/

namespace Sys2Proof.Machine

/-- "a comparison produces exactly 1 for true and exactly 0 for false" (rule R172). -/
def truthValue (b : Bool) : Word := if b then 1 else 0

/-- "a test (JT, JF) takes 0 as false and every other value as true" (rule R172). -/
def testsTrue (v : Word) : Bool := decide (v.toInt ≠ 0)

/-- `fits64(v)` (rule R8). -/
def fits64 (v : Int) : Bool := decide (-2 ^ 63 ≤ v) && decide (v ≤ 2 ^ 63 - 1)

/-- `wrap64(v)`: the member of `i64` congruent to `v` modulo 2^64 (rule R8). -/
def wrap64 (v : Int) : Word := BitVec.ofInt 64 v

/-- Narrow an exact result to `i64`: itself if it fits, else as `OVF_MODE` says (rules R132, R133;
notes/assumptions/7.md). No fault, no flag. -/
def narrow (exact : Int) (s : State) : Flow Word :=
  if fits64 exact then .done (wrap64 exact) s
  else
    match s.cfg.ovfMode with
    | .wrap => .done (wrap64 exact) s
    | .refuse => .refused (.resultOutsideI64 exact)

/-- `Sum64(a, b)` (rule R132). -/
def sum64 (a b : Word) (s : State) : Flow Word := narrow (a.toInt + b.toInt) s

/-- `Prod64(a, b)` (rule R133). -/
def prod64 (a b : Word) (s : State) : Flow Word := narrow (a.toInt * b.toInt) s

end Sys2Proof.Machine
end

