-- ==== Sys2Proof/Machine/Operands.lean ====
section
/-!
DEFINITION. Every operand form: position, immediate and relative, as a source and as a destination
(rules R86, R112, R113, R114, R117).
-/

namespace Sys2Proof.Machine

/-- The effective address of a parameter `p` under a mode digit: `p` in position mode, the exact integer sum
`rb + p` in relative mode, none otherwise (rules R114, R117; notes/assumptions/8.md). -/
def effectiveAddress (m : Digit) (rb p : Word) : Option Int :=
  match m.val with
  | 0 => some p.toInt
  | 2 => some (rb.toInt + p.toInt)
  | _ => none

/-- `ReadOperand(m)`: the parameter is consumed before its mode digit is looked at (rule R112). -/
def readOperand (m : Digit) (s : State) : Flow Word :=
  (nextCell s).bind fun p s =>
    match effectiveAddress m s.rb p with
    | some a => memRead a s
    | none =>
      if m.val = 1 then .done p s
      else .raised (raise .unrecognizedParameterMode (some m.val) s)

/-- `WriteOperand(m, v)`: mode 1 is refused like every undefined digit (rule R113). -/
def writeOperand (m : Digit) (v : Word) (s : State) : Flow Unit :=
  (nextCell s).bind fun p s =>
    match effectiveAddress m s.rb p with
    | some a => memWrite a v s
    | none => .raised (raise .unrecognizedParameterMode (some m.val) s)

/-! ## The same, said without the order of accesses

What an operand denotes in a state, once its parameter cell `p` is known. Claims are stated with these. -/

/-- The parameter `k` of the instruction whose word is at `pc` (rule R80). -/
def State.param (s : State) (k : Nat) : Word := s.cell (s.pc.toInt + k)

/-- The fault an effective address raises, if any (rule R51). -/
def addressFault (cfg : Config) (a : Int) : Option (Cause × Int) :=
  if validAddress cfg a then none else some (.outOfBounds, a)

/-- The fault a source raises, if any (rules R89, R112). -/
def sourceFault (m : Digit) (p : Word) (s : State) : Option (Cause × Int) :=
  match effectiveAddress m s.rb p with
  | some a => addressFault s.cfg a
  | none => if m.val = 1 then none else some (.unrecognizedParameterMode, (m.val : Int))

/-- The fault a destination raises, if any (rules R89, R113). -/
def destinationFault (m : Digit) (p : Word) (s : State) : Option (Cause × Int) :=
  match effectiveAddress m s.rb p with
  | some a => addressFault s.cfg a
  | none => some (.unrecognizedParameterMode, (m.val : Int))

/-- The value of a source that raises no fault (rule R86). -/
def sourceValue (m : Digit) (p : Word) (s : State) : Word :=
  match effectiveAddress m s.rb p with
  | some a => s.cell a
  | none => p

/-- The length of the backing sequence after the access an operand makes, if it makes one (rule R30). -/
def extendFor (m : Digit) (rb p : Word) (len : Nat) : Nat :=
  match effectiveAddress m rb p with
  | some a => extend len a
  | none => len

end Sys2Proof.Machine
end

