-- ==== Sys2Proof/Machine/Arithmetic.lean ====
section
/-! DEFINITION. Format `RRW` (rule R85), and the arithmetic instructions ADD and MUL (rules R130, R131). -/

namespace Sys2Proof.Machine

/-- Format `RRW`: two sources are read, a result is computed, and it is written to the destination, in this order
(rules R61, R85). -/
def formatRRW (compute : Word → Word → State → Flow Word) (m1 m2 m3 : Digit) (s : State) : Flow Unit :=
  (readOperand m1 s).bind fun a s =>
    (readOperand m2 s).bind fun b s =>
      (compute a b s).bind fun r s => writeOperand m3 r s

/-- ADD (rule R130). -/
def execAdd (m1 m2 m3 : Digit) (s : State) : Host.Outcome State Fault Refusal :=
  instruction (formatRRW sum64 m1 m2 m3) s

/-- MUL (rule R131). -/
def execMul (m1 m2 m3 : Digit) (s : State) : Host.Outcome State Fault Refusal :=
  instruction (formatRRW prod64 m1 m2 m3) s

end Sys2Proof.Machine
end

