-- ==== Sys2Proof/Machine/Compare.lean ====
section
/-! DEFINITION. The comparison instructions LT and EQ (rules R170, R171). -/

namespace Sys2Proof.Machine

/-- LT: a signed comparison of the integers (rule R170). -/
def execLt (m1 m2 m3 : Digit) (s : State) : Host.Outcome State Fault Refusal :=
  instruction (formatRRW (fun a b s => .done (truthValue (decide (a.toInt < b.toInt))) s) m1 m2 m3) s

/-- EQ: equality of the integers (rule R171). -/
def execEq (m1 m2 m3 : Digit) (s : State) : Host.Outcome State Fault Refusal :=
  instruction (formatRRW (fun a b s => .done (truthValue (decide (a.toInt = b.toInt))) s) m1 m2 m3) s

end Sys2Proof.Machine
end

