-- ==== Sys2Proof/Machine/Halt.lean ====
section
/-! DEFINITION. The halt instruction HALT (rule R185). -/

namespace Sys2Proof.Machine

/-- HALT: `STATE <- Halted` (rule R185). -/
def execHalt (s : State) : Host.Outcome State Fault Refusal :=
  instruction (fun s => .done () { s with run := .halted }) s

end Sys2Proof.Machine
end

