-- ==== Sys2Proof/Machine/Ports.lean ====
section
/-!
DEFINITION. The transactions of the two ports (rules R140 to R147). The binding flag selects the provider: the
channel if bound, the console if not (rule R28).
-/

namespace Sys2Proof.Machine

/-- The console input port: a line that parses is a value, a failure closes the port for good, no line yet
holds (rule R146). -/
def consoleRecv (s : State) : Flow Word :=
  match s.consoleIn with
  | .value v :: rest => .done v { s with consoleIn := rest }
  | .failure :: _ => .raised (raise .inputError none s)
  | [] => .held

/-- The channel behind the input port: queued items are delivered, oldest first, before closure is reported
(rule R142; notes/assumptions/18.md). -/
def channelRecv (s : State) : Flow Word :=
  match s.inQueue with
  | v :: rest => .done v { s with inQueue := rest }
  | [] => if s.inSenders = 0 then .raised (raise .inputError none s) else .held

/-- `InRecv()` (rule R141). -/
def inRecv (s : State) : Flow Word := if s.inBound then channelRecv s else consoleRecv s

/-- The console output port always takes the value (rule R147). -/
def consoleSend (v : Word) (s : State) : Flow Unit := .done () { s with consoleOut := s.consoleOut ++ [v] }

/-- The channel behind the output port: closed if the receiver has gone, whatever the queue; else the value is
appended if there is room; else hold (rule R143). -/
def channelSend (v : Word) (s : State) : Flow Unit :=
  if s.outReceiver then
    if s.cfg.outCap.hasRoom s.outQueue.length then .done () { s with outQueue := s.outQueue ++ [v] } else .held
  else .raised (raise .outputError none s)

/-- `OutSend(v)` (rule R143). -/
def outSend (v : Word) (s : State) : Flow Unit := if s.outBound then channelSend v s else consoleSend v s

end Sys2Proof.Machine
end

