-- ==== Sys2Proof/Machine/InputOutput.lean ====
section
/-! DEFINITION. The input and output instructions IN and OUT (rules R144, R145). -/

namespace Sys2Proof.Machine

/-- IN: the input transaction comes before the destination parameter (rule R144; notes/assumptions/13.md). -/
def execInp (m1 : Digit) (s : State) : Host.Outcome State Fault Refusal :=
  instruction (fun s => (inRecv s).bind fun v s => writeOperand m1 v s) s

/-- OUT: the operand is read before the port is tried (rule R145). -/
def execOut (m1 : Digit) (s : State) : Host.Outcome State Fault Refusal :=
  instruction (fun s => (readOperand m1 s).bind fun v s => outSend v s) s

end Sys2Proof.Machine
end

