-- ==== Sys2Proof/Machine/Jumps.lean ====
section
/-! DEFINITION. Format `RR` (rule R85), and the jumps JT and JF (rules R160 to R163). -/

namespace Sys2Proof.Machine

/-- Format `RR`: both operands are always read; the target is checked, and `pc` written, only if the jump is
taken (rules R160, R163; notes/assumptions/12.md). -/
def formatRR (taken : Word → Bool) (m1 m2 : Digit) (s : State) : Flow Unit :=
  (readOperand m1 s).bind fun a s =>
    (readOperand m2 s).bind fun b s => if taken a then jumpTo b s else .done () s

/-- JT: taken if the condition is not 0 (rule R160). -/
def execJt (m1 m2 : Digit) (s : State) : Host.Outcome State Fault Refusal :=
  instruction (formatRR testsTrue m1 m2) s

/-- JF: taken if the condition is 0 (rule R161). -/
def execJf (m1 m2 : Digit) (s : State) : Host.Outcome State Fault Refusal :=
  instruction (formatRR (fun a => !testsTrue a) m1 m2) s

end Sys2Proof.Machine
end

