-- ==== Sys2Proof/Machine/RelativeBase.lean ====
section
/-! DEFINITION. The relative base instruction ARB (rule R180), the only one that writes `rb` (rule R24). -/

namespace Sys2Proof.Machine

/-- ARB: the operand is resolved with the old `rb` (rule R180). -/
def execArb (m1 : Digit) (s : State) : Host.Outcome State Fault Refusal :=
  instruction (fun s => (readOperand m1 s).bind fun a s => (sum64 s.rb a s).bind fun r s => .done () { s with rb := r }) s

end Sys2Proof.Machine
end

