-- ==== Sys2Proof/Machine/Cycle.lean ====
section
/-! DEFINITION. The instruction cycle of the engine (rule R110). -/

namespace Sys2Proof.Machine

/-- One cycle while `STATE = Running`: fetch the word at `pc`, decode it, run the instruction, or raise
UnrecognizedOpcode with the word consumed (rules R88, R110, R193). -/
def engineCycle (s : State) : Host.Outcome State Fault Refusal :=
  match nextCell s with
  | .done w s' =>
    match decode w with
    | .ok i => exec i s
    | .error (.unrecognizedOpcode d) => .next (raise .unrecognizedOpcode (some d) s')
  | .raised s' => .next s'
  | .held => .next s
  | .refused r => .refused r

/-- "The engine performs instruction cycles only while `STATE = Running`" (rule R26); in the other states nothing
happens (notes/assumptions/14.md). -/
def engineTurn (s : State) : Host.Outcome State Fault Refusal :=
  match s.run with
  | .running => engineCycle s
  | .ready => .next s
  | .halted => .next s
  | .faulted => .next s

end Sys2Proof.Machine
end

