-- ==== Sys2Proof/Machine/Environment.lean ====
section
/-!
DEFINITION. The moves of the environment behind the ports (rules R142, R143, R146, R148, R151).

A move that cannot be made (a sender that is gone, a full or empty channel) is refused: the agenda that names it
describes no run (notes/assumptions/6.md).

DESIGN CHOICE (notes/assumptions/24.md): no move discards the engine's own endpoints, neither the receiver of the input
channel nor the sender bound to the output port, at no time and not after the engine has stopped. The spec leaves to
the host when, or whether, it does so (rules R151, R212, decision D20, U26).
-/

namespace Sys2Proof.Machine

/-- Somebody else than the engine has a sender of the output channel: a clone, or, before `bindOutput` moves it to the
port, the sender itself (rules R148, R208). -/
def State.foreignOutSender (s : State) : Bool := s.outSenders ≠ 0 || !s.outBound

/-- The host has the receiver of the input channel: before `bindInput` moves it to the port, and after the engine has
stopped (rule R148, "may read items left in a channel after the engine stops"). -/
def State.hostHasReceiver (s : State) : Bool := !s.inBound || s.run = .halted || s.run = .faulted

/-- One environment move. A `send` to an engine that has stopped succeeds while there is room, because the receiver is
never discarded: DESIGN CHOICE, notes/assumptions/24.md. -/
def environmentMove (e : EnvMove) (s : State) : Host.Outcome State Fault Refusal :=
  match e with
  | .send v =>
    if s.inSenders ≠ 0 && s.cfg.inCap.hasRoom s.inQueue.length then .next { s with inQueue := s.inQueue ++ [v] }
    else .refused .environmentMoveImpossible
  | .cloneSender =>
    if s.inSenders ≠ 0 then .next { s with inSenders := s.inSenders + 1 } else .refused .environmentMoveImpossible
  | .dropSender =>
    if s.inSenders ≠ 0 then .next { s with inSenders := s.inSenders - 1 } else .refused .environmentMoveImpossible
  | .receive =>
    match s.outReceiver, s.outQueue with
    | true, _ :: rest => .next { s with outQueue := rest }
    | _, _ => .refused .environmentMoveImpossible
  | .dropReceiver =>
    if s.outReceiver then .next { s with outReceiver := false } else .refused .environmentMoveImpossible
  | .sendOut v =>
    if s.foreignOutSender && s.outReceiver && s.cfg.outCap.hasRoom s.outQueue.length then
      .next { s with outQueue := s.outQueue ++ [v] }
    else .refused .environmentMoveImpossible
  | .cloneOutSender =>
    if s.foreignOutSender then .next { s with outSenders := s.outSenders + 1 }
    else .refused .environmentMoveImpossible
  | .dropOutSender =>
    if s.outSenders ≠ 0 then .next { s with outSenders := s.outSenders - 1 }
    else .refused .environmentMoveImpossible
  | .receiveIn =>
    match s.hostHasReceiver, s.inQueue with
    | true, _ :: rest => .next { s with inQueue := rest }
    | _, _ => .refused .environmentMoveImpossible
  | .consoleLine l => .next { s with consoleIn := s.consoleIn ++ [l] }

end Sys2Proof.Machine
end

