-- ==== Sys2Proof/Machine/HostOps.lean ====
section
/-!
DEFINITION. The operations of the host on an instance (rules R66, R118, R234 to R236), other than `load`.

What an operation returns is appended to `replies`. An operation out of order has no meaning and is refused
(rules R216 (b), R236; notes/assumptions/21.md).
-/

namespace Sys2Proof.Machine

/-- Append what an operation returned. -/
def reply (r : HostReply) (s : State) : State := { s with replies := s.replies ++ [r] }

/-- `get(address)`: `MemRead` by the host; a failed check returns the error to the host and changes nothing in the
instance (rule R66). -/
def hostGet (a : Word) (s : State) : Host.Outcome State Fault Refusal :=
  if s.run = .running then .refused .hostAccessWhileRunning
  else
    match memRead a.toInt s with
    | .done v s' => .next (reply (.value v) s')
    | .raised _ => .next (reply (.outOfBounds a.toInt) s)
    | .held => .next s
    | .refused r => .refused r

/-- `set(address, value)`: `MemWrite` by the host (rule R66). -/
def hostSet (a v : Word) (s : State) : Host.Outcome State Fault Refusal :=
  if s.run = .running then .refused .hostAccessWhileRunning
  else
    match memWrite a.toInt v s with
    | .done _ s' => .next (reply .done s')
    | .raised _ => .next (reply (.outOfBounds a.toInt) s)
    | .held => .next s
    | .refused r => .refused r

/-- `bindInput(receiver)` (rules R28, R148). -/
def hostBindInput (s : State) : Host.Outcome State Fault Refusal :=
  if s.run ≠ .ready then .refused .bindOutsideReady
  else if s.inBound then .refused .portAlreadyBound
  else .next (reply .done { s with inBound := true })

/-- `bindOutput(sender)` (rules R28, R148). -/
def hostBindOutput (s : State) : Host.Outcome State Fault Refusal :=
  if s.run ≠ .ready then .refused .bindOutsideReady
  else if s.outBound then .refused .portAlreadyBound
  else .next (reply .done { s with outBound := true })

/-- `run()`: `STATE` moves from Ready to Running (rule R118). What it returns when the engine stops is
`State.runResult`. -/
def hostRun (s : State) : Host.Outcome State Fault Refusal :=
  if s.run = .ready then .next { s with run := .running } else .refused .runOutsideReady

/-- One host operation. -/
def hostMove (op : HostOp) (s : State) : Host.Outcome State Fault Refusal :=
  match op with
  | .get a => hostGet a s
  | .set a v => hostSet a v s
  | .bindInput => hostBindInput s
  | .bindOutput => hostBindOutput s
  | .run => hostRun s

/-- What `run` returns: success, or the error value `(CAUSE, INFO)` (rule R235). -/
inductive RunResult where
  | success
  | error (k : Option Cause) (info : Option Int)
deriving DecidableEq, Repr

/-- What `run` has returned, if the engine has stopped (rules R118, R186, R235). -/
def State.runResult (s : State) : Option RunResult :=
  match s.run with
  | .ready => none
  | .running => none
  | .halted => some .success
  | .faulted => some (.error s.cause s.info)

end Sys2Proof.Machine
end

