-- ==== Sys2Proof/Machine/Loader.lean ====
section
/-!
DEFINITION. Load, which is reset (rules R34, R230 to R233).

`State.load` takes the program image, as rule R233 allows. The parser of the program text is outside the CORE
(rule R4 (b)) and is modelled all the same.
-/

namespace Sys2Proof.Machine

/-- The reset state of rule R34, from a program image. -/
def State.load (cfg : Config) (image : List Word) : State :=
  { State.reset with cfg := cfg, mem := placeCells 0 image [], len := image.length }

/-- The load-time error, code 0 (rules R191, R197). It is no run-time fault: no instance exists. -/
inductive ParseError where
  | parseError
deriving DecidableEq, Repr

/-- The value of a decimal digit character. -/
def digitChar (c : Char) : Option Nat :=
  if 48 ≤ c.toNat && c.toNat ≤ 57 then some (c.toNat - 48) else none

/-- `[0-9]*`, most significant digit first, continuing from the value so far. -/
def parseDigits (value : Nat) : List Char → Option Nat
  | [] => some value
  | c :: cs =>
    match digitChar c with
    | some d => parseDigits (10 * value + d) cs
    | none => none

/-- `[0-9]+`. -/
def parseNat : List Char → Option Nat
  | [] => none
  | c :: cs => parseDigits 0 (c :: cs)

/-- `intgr`: `-?[0-9]+`, in `i64` (rules R231, R232). -/
def parseInteger (field : List Char) : Option Word :=
  let exact : Option Int :=
    match field with
    | '-' :: digits => (parseNat digits).map fun n : Nat => -(n : Int)
    | digits => (parseNat digits).map fun n : Nat => (n : Int)
  match exact with
  | some v => if fits64 v then some (wrap64 v) else none
  | none => none

/-- The fields between the commas; there is always at least one. -/
def splitCommas : List Char → List (List Char)
  | [] => [[]]
  | c :: cs =>
    if c = ',' then [] :: splitCommas cs
    else
      match splitCommas cs with
      | field :: fields => (c :: field) :: fields
      | [] => [[c]]

/-- Take away the one optional line terminator: LF, or CR LF where `CRLF_OK` says so (rule R231). -/
def stripTerminator (cfg : Config) (text : List Char) : List Char :=
  match text.reverse with
  | '\n' :: '\r' :: rest => if cfg.crlfOk then rest.reverse else ('\r' :: rest).reverse
  | '\n' :: rest => rest.reverse
  | _ => text

/-- All fields, or the failure of one: "any malformed input rejects the whole program" (rule R232). -/
def parseFields : List (List Char) → Option (List Word)
  | [] => some []
  | f :: fs =>
    match parseInteger f, parseFields fs with
    | some v, some vs => some (v :: vs)
    | _, _ => none

/-- The program text as an image: `intgr(,intgr)*`, at most `ADDR_MAX + 1` integers (rules R231, R232). -/
def parseProgram (cfg : Config) (text : List Char) : Except ParseError (List Word) :=
  match parseFields (splitCommas (stripTerminator cfg text)) with
  | some image => if image.length ≤ cfg.addrMax.val + 1 then .ok image else .error .parseError
  | none => .error .parseError

/-- `load(text) -> Engine | ParseError` (rules R230, R234). -/
def loadText (cfg : Config) (text : List Char) : Except ParseError State :=
  match parseProgram cfg text with
  | .ok image => .ok (State.load cfg image)
  | .error e => .error e

end Sys2Proof.Machine
end

