-- ==== Sys2Proof/Machine/Step.lean ====
section
/-!
DEFINITION. One step of the whole: the next move on the agenda if there is one, else a turn of the engine.
-/

namespace Sys2Proof.Machine

/-- One move of one agent. -/
def move (m : Move) (s : State) : Host.Outcome State Fault Refusal :=
  match m with
  | .engine => engineTurn s
  | .host op => hostMove op s
  | .environment e => environmentMove e s

/-- One step (notes/assumptions/5.md). -/
def step (s : State) : Host.Outcome State Fault Refusal :=
  match s.agenda with
  | [] => engineTurn s
  | m :: rest => move m { s with agenda := rest }

/-- `s` with the instruction whose bits are `w` stored at `pc`, where the next step fetches, and the engine
Running with nothing on the agenda, so that the next step runs it (notes/assumptions/2.md). Cells past
`ADDR_MAX` do not exist and are not stored. -/
def State.withFetchWord (s : State) (nbits w : Nat) : State :=
  let cells := (instructionCells nbits w).take (s.cfg.addrMax.val + 1 - s.pc.toNat)
  { s with
    run := .running
    agenda := []
    mem := placeCells s.pc.toNat cells s.mem
    len := max s.len (s.pc.toNat + cells.length) }

end Sys2Proof.Machine
end

