-- ==== Sys2Proof/Safety.lean ====
section
/-!
DEFINITION. What claims call a good state and a safe run.
-/

namespace Sys2Proof.Machine

/-- What the payload of a fault kind can be (rules R27, R192 to R194): an invalid address; an opcode field that is no
opcode; a mode digit that is not accepted. -/
def Cause.admitsPayload (cfg : Config) : Cause → Int → Bool
  | .outOfBounds, a => !validAddress cfg a
  | .unrecognizedOpcode, d => decide (-99 ≤ d) && decide (d ≤ 98) && !(decide (1 ≤ d) && decide (d ≤ 9))
  | .unrecognizedParameterMode, d => decide (d = 1) || (decide (3 ≤ d) && decide (d ≤ 9))
  | .inputError, _ => false
  | .outputError, _ => false

/-- The invariant of the machine. Every step of every agent keeps it, and every load establishes it. -/
structure State.Inv (s : State) : Prop where
  /-- The parameters are in the ranges of rule R5. -/
  cfg_legal : s.cfg.legal = true
  /-- `0 <= pc <= ADDR_MAX` (rule R23). -/
  pc_valid : validAddress s.cfg s.pc.toInt = true
  /-- Memory has its canonical form. -/
  mem_wf : s.mem.wf = true
  /-- A cell at or past `LEN` holds 0 (rule R30). -/
  mem_below_len : ∀ a, s.len ≤ a → s.mem.read a = 0
  /-- `LEN` is in `0 .. ADDR_MAX + 1` (rule R20). -/
  len_range : s.len ≤ s.cfg.addrMax.val + 1
  /-- In Ready, `pc = 0` and `rb = 0` (rules R26, R35). -/
  ready_fresh : s.run = .ready → s.pc = 0 ∧ s.rb = 0
  /-- `CAUSE` has a value exactly in Faulted (rule R27). -/
  cause_iff_faulted : s.cause.isSome = true ↔ s.run = .faulted
  /-- `INFO` has a value exactly where the kind has a payload (rule R27). -/
  info_iff_payload : s.info.isSome = s.cause.any Cause.hasPayload
  /-- A payload is one its kind can have (rules R192 to R194). -/
  payload_sound : ∀ k d, s.cause = some k → s.info = some d → k.admitsPayload s.cfg d = true
  /-- The queues are within the capacities (rule R5). -/
  queues_fit : s.cfg.inCap.admits s.inQueue.length = true ∧ s.cfg.outCap.admits s.outQueue.length = true

/-- The run has ended (rule R186). -/
def State.stopped (s : State) : Prop := s.run = .halted ∨ s.run = .faulted

/-- The run has not faulted. A program is safe if this holds in every state of its run. -/
def State.notFaulted (s : State) : Prop := s.run ≠ .faulted

/-! ## The vocabulary of the statements -/

/-- `pc` is a valid address and the `n` cells from `pc` on can be consumed without passing `ADDR_MAX` (rule R111). -/
def State.hasRoom (s : State) (n : Nat) : Prop := 0 ≤ s.pc.toInt ∧ s.pc.toInt + n ≤ s.cfg.addrMax.val

/-- `s` faulted after `consumed` cells were consumed, with the backing sequence grown to `len` (rules R116, R200). -/
def State.faultAfter (s : State) (consumed len : Nat) (f : Cause × Int) : State :=
  { s with pc := s.pc + BitVec.ofNat 64 consumed, len := len, run := .faulted, cause := some f.1, info := some f.2 }

/-- `LEN` once the first source operand is resolved, for an instruction whose word is at `pc` (rule R30). -/
def State.lenOne (s : State) (m1 : Digit) : Nat :=
  extendFor m1 s.rb (s.param 1) (extend s.len (s.pc.toInt + 1))

/-- `LEN` once the second source operand is resolved. -/
def State.lenTwo (s : State) (m1 m2 : Digit) : Nat :=
  extendFor m2 s.rb (s.param 2) (extend (s.lenOne m1) (s.pc.toInt + 2))

/-- `i` is an instruction of format `RRW` whose result, from sources `a` and `b`, is the word `r` with `result s a b r`:
it faults, completes, and counts cells as rules R130, R131, R170, R171 say of their instructions, wherever its word
and its first parameter can be consumed (`TopOfAddressSpaceFaults` says what happens where they cannot).

Choices of the spec's own in it: that parameters 2 and 3 at `ADDR_MAX` fault with `pc` kept is decision D4
(notes/assumptions/9.md), that a parameter whose mode digit is rejected counts as consumed is decision D24
(notes/assumptions/13.md), and that relative addresses are exact sums is decision D3 (notes/assumptions/8.md). -/
def FollowsRRW (i : Digit → Digit → Digit → Instr) (result : State → Word → Word → Word → Prop) : Prop :=
  ∀ (m1 m2 m3 : Digit) (s : State), s.hasRoom 2 →
    (∀ f, sourceFault m1 (s.param 1) s = some f →
      exec (i m1 m2 m3) s = .next (s.faultAfter 2 (extend s.len (s.pc.toInt + 1)) f)) ∧
    (sourceFault m1 (s.param 1) s = none → s.pc.toInt + 2 = s.cfg.addrMax.val →
      exec (i m1 m2 m3) s =
        .next (s.faultAfter 2 (extend (s.lenOne m1) (s.pc.toInt + 2)) (.outOfBounds, s.pc.toInt + 3))) ∧
    (s.hasRoom 3 → sourceFault m1 (s.param 1) s = none → ∀ f, sourceFault m2 (s.param 2) s = some f →
      exec (i m1 m2 m3) s = .next (s.faultAfter 3 (extend (s.lenOne m1) (s.pc.toInt + 2)) f)) ∧
    (s.hasRoom 3 → sourceFault m1 (s.param 1) s = none → sourceFault m2 (s.param 2) s = none → ∀ r,
      result s (sourceValue m1 (s.param 1) s) (sourceValue m2 (s.param 2) s) r →
      (s.pc.toInt + 3 = s.cfg.addrMax.val →
        exec (i m1 m2 m3) s =
          .next (s.faultAfter 3 (extend (s.lenTwo m1 m2) (s.pc.toInt + 3)) (.outOfBounds, s.pc.toInt + 4))) ∧
      (s.hasRoom 4 →
        (∀ f, destinationFault m3 (s.param 3) s = some f →
          exec (i m1 m2 m3) s = .next (s.faultAfter 4 (extend (s.lenTwo m1 m2) (s.pc.toInt + 3)) f)) ∧
        (∀ d, effectiveAddress m3 s.rb (s.param 3) = some d → validAddress s.cfg d = true →
          exec (i m1 m2 m3) s =
            .next { s with
              pc := s.pc + 4
              len := extend (extend (s.lenTwo m1 m2) (s.pc.toInt + 3)) d
              mem := s.mem.write d.toNat r })))

/-- `i` is a jump that is taken when `taken a` holds of its condition `a` (rules R160, R161, R162), wherever its word and
its first parameter can be consumed.

Choices of the spec's own in it: that both operands are always resolved and a bad target leaves `pc` past the
instruction is decisions D7 and D26 (notes/assumptions/12.md), that parameter 2 at `ADDR_MAX` faults with `pc` kept is
decision D4 (notes/assumptions/9.md), that a parameter whose mode digit is rejected counts as consumed is decision D24
(notes/assumptions/13.md), and that relative addresses are exact sums is decision D3 (notes/assumptions/8.md). -/
def FollowsRR (i : Digit → Digit → Instr) (taken : Word → Prop) : Prop :=
  ∀ (m1 m2 : Digit) (s : State), s.hasRoom 2 →
    (∀ f, sourceFault m1 (s.param 1) s = some f →
      exec (i m1 m2) s = .next (s.faultAfter 2 (extend s.len (s.pc.toInt + 1)) f)) ∧
    (sourceFault m1 (s.param 1) s = none → s.pc.toInt + 2 = s.cfg.addrMax.val →
      exec (i m1 m2) s =
        .next (s.faultAfter 2 (extend (s.lenOne m1) (s.pc.toInt + 2)) (.outOfBounds, s.pc.toInt + 3))) ∧
    (s.hasRoom 3 → sourceFault m1 (s.param 1) s = none → ∀ f, sourceFault m2 (s.param 2) s = some f →
      exec (i m1 m2) s = .next (s.faultAfter 3 (extend (s.lenOne m1) (s.pc.toInt + 2)) f)) ∧
    (s.hasRoom 3 → sourceFault m1 (s.param 1) s = none → sourceFault m2 (s.param 2) s = none →
      (¬ taken (sourceValue m1 (s.param 1) s) →
        exec (i m1 m2) s = .next { s with pc := s.pc + 3, len := s.lenTwo m1 m2 }) ∧
      (taken (sourceValue m1 (s.param 1) s) → ∀ b, b = sourceValue m2 (s.param 2) s →
        (validAddress s.cfg b.toInt = true →
          exec (i m1 m2) s = .next { s with pc := b, len := s.lenTwo m1 m2 }) ∧
        (validAddress s.cfg b.toInt = false →
          exec (i m1 m2) s = .next (s.faultAfter 3 (s.lenTwo m1 m2) (.outOfBounds, b.toInt)))))

/-- The parameters, the binding flags and the bookkeeping are the same. -/
def State.sameControl (s t : State) : Prop :=
  t.cfg = s.cfg ∧ t.inBound = s.inBound ∧ t.outBound = s.outBound ∧ t.replies = s.replies ∧ t.agenda = s.agenda

/-- The far side of the input port is the same. -/
def State.sameInput (s t : State) : Prop :=
  t.inQueue = s.inQueue ∧ t.inSenders = s.inSenders ∧ t.consoleIn = s.consoleIn

/-- The far side of the output port is the same. -/
def State.sameOutput (s t : State) : Prop :=
  t.outQueue = s.outQueue ∧ t.outReceiver = s.outReceiver ∧ t.outSenders = s.outSenders ∧ t.consoleOut = s.consoleOut

/-- `STATE`, `CAUSE` and `INFO` are the same, or the instruction has faulted (rule R200). -/
def State.sameRunOrFaulted (s t : State) : Prop :=
  (t.run = s.run ∧ t.cause = s.cause ∧ t.info = s.info) ∨ (t.run = .faulted ∧ t.cause.isSome = true)

/-- Every cell reads as before. -/
def State.sameCells (s t : State) : Prop := ∀ a : Nat, t.mem.read a = s.mem.read a

/-- Every cell reads as before, except the one a destination parameter names. -/
def State.sameCellsBut (s t : State) (m : Digit) (p : Word) : Prop :=
  (∀ d, effectiveAddress m s.rb p = some d → ∀ a : Nat, (a : Int) ≠ d → t.mem.read a = s.mem.read a) ∧
  (effectiveAddress m s.rb p = none → s.sameCells t)

/-- `s` with `LEN` forgotten. -/
def State.withoutLen (s : State) : State := { s with len := 0 }

/-- An outcome with `LEN` forgotten. -/
def outcomeWithoutLen (o : Host.Outcome State Fault Refusal) : Host.Outcome State Fault Refusal :=
  match o with
  | .next s => .next s.withoutLen
  | .fault f => .fault f
  | .refused r => .refused r

/-- `s` with the far sides of the ports and the binding flags of `p`. -/
def State.withPortsOf (s p : State) : State :=
  { s with
    inBound := p.inBound
    outBound := p.outBound
    inQueue := p.inQueue
    inSenders := p.inSenders
    outQueue := p.outQueue
    outReceiver := p.outReceiver
    outSenders := p.outSenders
    consoleIn := p.consoleIn
    consoleOut := p.consoleOut }

/-- An outcome with the ports of `p`. -/
def outcomeWithPortsOf (p : State) (o : Host.Outcome State Fault Refusal) : Host.Outcome State Fault Refusal :=
  match o with
  | .next s => .next (s.withPortsOf p)
  | .fault f => .fault f
  | .refused r => .refused r

/-- The decimal text of a word, as Lean writes an integer. -/
def decimalText (v : Word) : List Char := (toString v.toInt).toList

/-- The comma-separated decimal text of an image. -/
def imageText (image : List Word) : List Char := [','].intercalate (image.map decimalText)

/-- The number that decimal digits denote, most significant digit first. -/
def digitsValue (digits : List Digit) : Nat := digits.foldl (fun n d => 10 * n + d.val) 0

/-- `field` is `-?[0-9]+` and denotes `v` (rule R231). -/
def IntegerText (field : List Char) (v : Word) : Prop :=
  ∃ (negative : Bool) (digits : List Digit), digits ≠ [] ∧
    field = (if negative then ['-'] else []) ++ digits.map (fun d => Char.ofNat (48 + d.val)) ∧
    v.toInt = if negative then -(digitsValue digits : Int) else digitsValue digits

/-- `i` is IN or OUT. -/
def usesPort : Instr → Bool
  | .inp _ => true
  | .out _ => true
  | .add _ _ _ => false
  | .mul _ _ _ => false
  | .jt _ _ => false
  | .jf _ _ => false
  | .lt _ _ _ => false
  | .eq _ _ _ => false
  | .arb _ => false
  | .halt => false

end Sys2Proof.Machine
end

