-- ==== Sys2Proof/Certificates/Slice0/Obligations.lean ====
section
/-!
DEFINITION. The statements for the provers. Each docstring names the rule of spec/ it formalises, and what of it, if
anything, is the spec's own decision or the model's choice.
-/

open Sys2Proof Sys2Proof.Machine

/-! ## Encoding -/

/-- Rules R81, R82, R93: the canonical word of an instruction decodes to that instruction, whatever digits 0 to 9 its
mode fields hold, legal for their role or not. The canonical word is the spec's decision D16. -/
def Obligations.DecodeEncodeRoundTrip : Prop := ∀ i : Instr, decode (encode i) = .ok i

/-- Rules R82, R84, R87, R90: a word decodes to `i` exactly if it is not negative, its two low digits are the opcode of
`i`, and the mode digits `i` uses stand from the hundreds digit upward. So no other digit matters: unused mode digits
and digits above the fifth are ignored (the latter is decision D6, notes/assumptions/11.md). -/
def Obligations.DecodeSelectsByUsedDigits : Prop :=
  ∀ (w : Word) (i : Instr), decode w = .ok i ↔
    0 ≤ w.toInt ∧ w.toInt % 100 = i.opcode ∧
      ∀ k (h : k < i.modes.length), ((i.modes[k]'h).val : Int) = w.toInt / 10 ^ (k + 2) % 10

/-- Rule R83 with decision D5 (notes/assumptions/10.md): every negative word is rejected, with the remainder of division
by 100 rounded toward zero. -/
def Obligations.NegativeWordsAreNoInstruction : Prop :=
  ∀ w : Word, w.toInt < 0 → decode w = .error (.unrecognizedOpcode (w.toInt - 100 * (w.toInt.tdiv 100)))

/-- The 18 canonical words rule R96 lists for ADD; "the other `RRW` instructions replace the final digit". -/
def Sys2Proof.wordsOfRRW (op : Nat) : List Nat :=
  [0, 100, 200, 1000, 1100, 1200, 2000, 2100, 2200, 20000, 20100, 20200, 21000, 21100, 21200, 22000, 22100, 22200].map
    (· + op)

/-- The canonical words of the legal instructions, as rule R96 lists them. -/
def Sys2Proof.legalWords : List Nat :=
  Sys2Proof.wordsOfRRW 1 ++ Sys2Proof.wordsOfRRW 2 ++ Sys2Proof.wordsOfRRW 7 ++ Sys2Proof.wordsOfRRW 8 ++
    [3, 203] ++ [4, 104, 204] ++ [5, 105, 205, 1005, 1105, 1205, 2005, 2105, 2205] ++
    [6, 106, 206, 1006, 1106, 1206, 2006, 2106, 2206] ++ [9, 109, 209] ++ [99]

/-- Rule R96 (derived there from R81, R85, R86, R89): there are 99 distinct legal canonical words, and an instruction is
well formed exactly if its canonical word is one of them. -/
def Obligations.NinetyNineLegalWords : Prop :=
  Sys2Proof.legalWords.length = 99 ∧ Sys2Proof.legalWords.Nodup ∧
    (∀ i : Instr, i.wellFormed = true ↔ (encode i).toNat ∈ Sys2Proof.legalWords) ∧
    ∀ n ∈ Sys2Proof.legalWords, ∃ i : Instr, i.wellFormed = true ∧ (encode i).toNat = n

/-- Words of every format written out in decimal from rules R81 and R87 decode to the instructions they stand for
(vectors V-DEC-1 to V-DEC-8 and rule R90). -/
def Obligations.WrittenOutWordsDecode : Prop :=
  decode 1002 = .ok (.mul 0 1 0) ∧ decode 21101 = .ok (.add 1 1 2) ∧ decode 3 = .ok (.inp 0) ∧
    decode 204 = .ok (.out 2) ∧ decode 1105 = .ok (.jt 1 1) ∧ decode 2106 = .ok (.jf 1 2) ∧
    decode 22207 = .ok (.lt 2 2 2) ∧ decode 1108 = .ok (.eq 1 1 0) ∧ decode 109 = .ok (.arb 1) ∧
    decode 99 = .ok .halt ∧ decode 399 = .ok .halt

/-! ## The primitives -/

/-- Rule R52, whole: the address is checked; then `LEN` grows if the address is at or past it; the cell is returned;
nothing else changes; and a cell that was never written reads 0. -/
def Obligations.MemReadFollowsR52 : Prop :=
  (∀ (a : Int) (s : State), 0 ≤ a → a ≤ s.cfg.addrMax.val →
    memRead a s = .done (s.mem.read a.toNat) { s with len := if a ≥ s.len then a.toNat + 1 else s.len }) ∧
  (∀ (a : Int) (s : State), a < 0 ∨ a > s.cfg.addrMax.val → memRead a s = .raised (raise .outOfBounds (some a) s)) ∧
  (∀ (m : Memory) (a : Nat), (∀ c ∈ m, c.1 ≠ a) → m.read a = 0)

/-- Rule R53, whole: the address is checked; `LEN` grows as for a read; the cell is replaced; no other cell changes; and a
failed check changes neither memory nor `LEN`. The premise that memory has its canonical form is part of
`State.Inv`, which `StepKeepsInvariant` says every step keeps. -/
def Obligations.MemWriteFollowsR53 : Prop :=
  (∀ (a : Int) (v : Word) (s : State), s.mem.wf = true → 0 ≤ a → a ≤ s.cfg.addrMax.val →
    ∃ t, memWrite a v s = .done () t ∧ t.mem.read a.toNat = v ∧ (∀ b, b ≠ a.toNat → t.mem.read b = s.mem.read b) ∧
      t.mem.wf = true ∧ t = { s with len := if a ≥ s.len then a.toNat + 1 else s.len, mem := t.mem }) ∧
  (∀ (a : Int) (v : Word) (s : State), a < 0 ∨ a > s.cfg.addrMax.val →
    memWrite a v s = .raised (raise .outOfBounds (some a) s) ∧
      (raise .outOfBounds (some a) s).mem = s.mem ∧ (raise .outOfBounds (some a) s).len = s.len)

/-- Rule R111 with decision D4 (notes/assumptions/9.md): the immediate read returns the cell at `pc` and advances `pc` by
one; at the greatest address it raises OutOfBounds with the exact sum, `pc` keeping its value. -/
def Obligations.ImmediateReadAdvancesOrFaults : Prop :=
  (∀ s : State, 0 ≤ s.pc.toInt → s.pc.toInt + 1 ≤ s.cfg.addrMax.val →
    ∃ t, nextCell s = .done (s.cell s.pc.toInt) t ∧ t.pc.toInt = s.pc.toInt + 1 ∧
      t = { s with pc := t.pc, len := extend s.len s.pc.toInt }) ∧
  (∀ s : State, 0 ≤ s.pc.toInt → s.pc.toInt = s.cfg.addrMax.val →
    nextCell s = .raised (raise .outOfBounds (some (s.pc.toInt + 1)) { s with len := extend s.len s.pc.toInt }))

/-- Rule R113: the parameter is consumed, which raises OutOfBounds at the top of the address space, `pc` keeping its value
(decision D4, notes/assumptions/9.md); digits 0 and 2 store at `p` and at the exact sum `rb + p` (decision D3,
notes/assumptions/8.md); every other digit, 1 included, raises UnrecognizedParameterMode with `pc` past the parameter
(decision D24, notes/assumptions/13.md); an invalid address raises OutOfBounds; and no raise changes a cell. -/
def Obligations.WriteOperandFollowsR113 : Prop :=
  (∀ (m : Digit) (v : Word) (s : State), 0 ≤ s.pc.toInt → s.pc.toInt = s.cfg.addrMax.val →
    writeOperand m v s = .raised (s.faultAfter 0 (extend s.len s.pc.toInt) (.outOfBounds, s.pc.toInt + 1))) ∧
  ∀ (m : Digit) (v : Word) (s : State), s.hasRoom 1 → ∀ p, p = s.cell s.pc.toInt →
    ∀ a : Int, a = (if m = 0 then p.toInt else s.rb.toInt + p.toInt) →
      (m = 0 ∨ m = 2 →
        (0 ≤ a → a ≤ s.cfg.addrMax.val →
          writeOperand m v s =
            .done ()
              { s with
                pc := s.pc + 1
                len := extend (extend s.len s.pc.toInt) a
                mem := s.mem.write a.toNat v }) ∧
        (a < 0 ∨ a > s.cfg.addrMax.val →
          writeOperand m v s = .raised (s.faultAfter 1 (extend s.len s.pc.toInt) (.outOfBounds, a)))) ∧
      (m ≠ 0 → m ≠ 2 →
        writeOperand m v s =
          .raised (s.faultAfter 1 (extend s.len s.pc.toInt) (.unrecognizedParameterMode, (m.val : Int))))

/-- Rule R112: the parameter is consumed, which raises OutOfBounds at the top of the address space, `pc` keeping its value
(decision D4, notes/assumptions/9.md); digit 1 gives it as it stands; digits 0 and 2 give the cell at `p` and at the
exact sum `rb + p` (decision D3, notes/assumptions/8.md); an invalid address faults, and so does any other digit, with
`pc` past the parameter (decision D24, notes/assumptions/13.md). -/
def Obligations.ReadOperandResolvesEveryMode : Prop :=
  (∀ (m : Digit) (s : State), 0 ≤ s.pc.toInt → s.pc.toInt = s.cfg.addrMax.val →
    readOperand m s = .raised (s.faultAfter 0 (extend s.len s.pc.toInt) (.outOfBounds, s.pc.toInt + 1))) ∧
  ∀ (m : Digit) (s : State), s.hasRoom 1 → ∀ p, p = s.cell s.pc.toInt →
    ∀ a : Int, a = (if m = 0 then p.toInt else s.rb.toInt + p.toInt) →
      (m = 1 → readOperand m s = .done p { s with pc := s.pc + 1, len := extend s.len s.pc.toInt }) ∧
      (m = 0 ∨ m = 2 →
        (0 ≤ a → a ≤ s.cfg.addrMax.val →
          readOperand m s =
            .done (s.mem.read a.toNat)
              { s with pc := s.pc + 1, len := extend (extend s.len s.pc.toInt) a }) ∧
        (a < 0 ∨ a > s.cfg.addrMax.val →
          readOperand m s = .raised (s.faultAfter 1 (extend s.len s.pc.toInt) (.outOfBounds, a)))) ∧
      (3 ≤ m.val →
        readOperand m s =
          .raised (s.faultAfter 1 (extend s.len s.pc.toInt) (.unrecognizedParameterMode, (m.val : Int))))

/-- Rule R200, whole: `raise` writes `STATE`, `CAUSE` and `INFO` and nothing else; it ends the instruction, whatever was
to follow; and `(CAUSE, INFO)` is the error value `run` returns. -/
def Obligations.RaiseFollowsR200 : Prop :=
  ∀ (k : Cause) (info : Option Int) (s : State),
    raise k info s = { s with run := .faulted, cause := some k, info := info } ∧
      (∀ (α : Type) (start : State) (rest : α → State → Flow Unit),
        ((Flow.raised (raise k info s) : Flow α).bind rest).outcome start = .next (raise k info s)) ∧
      (raise k info s).runResult = some (.error (some k) info)

/-- The wrap-around of rule R8: `wrap64(v)` denotes `((v + 2^63) mod 2^64) - 2^63`, and `v` itself where `v` fits. -/
def Obligations.WrapIsCongruentAndExactWhereItFits : Prop :=
  ∀ v : Int, (wrap64 v).toInt = (v + 2 ^ 63) % 2 ^ 64 - 2 ^ 63 ∧ (fits64 v = true → (wrap64 v).toInt = v)

/-! ## The instructions

Each of these is a completion statement, a frame and the list of the faults of the instruction, in one: what is not
named in a next state is as before. -/

/-- Rule R130, where the exact sum fits `i64` (elsewhere rule R132 and decision D2 apply, `OverflowWraps` and
`OverflowIsRefused`): the faults in order, then the sum is stored.
In `FollowsRRW` the clauses for parameters 2 and 3 at `ADDR_MAX` rest on decision D4 (notes/assumptions/9.md), the `pc`
at a rejected mode digit on decision D24 (notes/assumptions/13.md), and exact relative addresses on decision D3
(notes/assumptions/8.md). -/
def Obligations.AddStoresExactSum : Prop := FollowsRRW .add fun _ a b r => r.toInt = a.toInt + b.toInt

/-- Rule R131, where the exact product fits `i64` (elsewhere rule R133 and decision D2 apply): the faults in order, then the
product is stored.
In `FollowsRRW` the clauses for parameters 2 and 3 at `ADDR_MAX` rest on decision D4 (notes/assumptions/9.md), the `pc`
at a rejected mode digit on decision D24 (notes/assumptions/13.md), and exact relative addresses on decision D3
(notes/assumptions/8.md). -/
def Obligations.MulStoresExactProduct : Prop := FollowsRRW .mul fun _ a b r => r.toInt = a.toInt * b.toInt

/-- Rule R170: 1 or 0 by signed comparison replaces the destination cell; faults as for ADD.
In `FollowsRRW` the clauses for parameters 2 and 3 at `ADDR_MAX` rest on decision D4 (notes/assumptions/9.md), the `pc`
at a rejected mode digit on decision D24 (notes/assumptions/13.md), and exact relative addresses on decision D3
(notes/assumptions/8.md). -/
def Obligations.LtStoresSignedComparison : Prop :=
  FollowsRRW .lt fun _ a b r => (a.toInt < b.toInt ∧ r = 1) ∨ (¬ a.toInt < b.toInt ∧ r = 0)

/-- Rule R171: 1 or 0 by equality replaces the destination cell; faults as for ADD.
In `FollowsRRW` the clauses for parameters 2 and 3 at `ADDR_MAX` rest on decision D4 (notes/assumptions/9.md), the `pc`
at a rejected mode digit on decision D24 (notes/assumptions/13.md), and exact relative addresses on decision D3
(notes/assumptions/8.md). -/
def Obligations.EqStoresEquality : Prop :=
  FollowsRRW .eq fun _ a b r => (a.toInt = b.toInt ∧ r = 1) ∨ (a.toInt ≠ b.toInt ∧ r = 0)

/-- Decision D2 (notes/assumptions/7.md): with `OVF_MODE = wrap`, ADD and MUL store the exact result wrapped to 64 bits,
whether it fits or not, and raise no fault for it.
In `FollowsRRW` the clauses for parameters 2 and 3 at `ADDR_MAX` rest on decision D4 (notes/assumptions/9.md), the `pc`
at a rejected mode digit on decision D24 (notes/assumptions/13.md), and exact relative addresses on decision D3
(notes/assumptions/8.md). -/
def Obligations.OverflowWraps : Prop :=
  (FollowsRRW .add fun s a b r =>
    s.cfg.ovfMode = .wrap ∧ r.toInt = (a.toInt + b.toInt + 2 ^ 63) % 2 ^ 64 - 2 ^ 63) ∧
  (FollowsRRW .mul fun s a b r =>
    s.cfg.ovfMode = .wrap ∧ r.toInt = (a.toInt * b.toInt + 2 ^ 63) % 2 ^ 64 - 2 ^ 63)

/-- Decision D2 and rule R216 (a) (notes/assumptions/7.md): with `OVF_MODE = refuse`, an ADD, MUL or ARB whose sources
resolve and whose exact result is outside `i64` is refused, whatever its destination. -/
def Obligations.OverflowIsRefused : Prop :=
  (∀ (m1 m2 m3 : Digit) (s : State), s.hasRoom 3 → s.cfg.ovfMode = .refuse →
    sourceFault m1 (s.param 1) s = none → sourceFault m2 (s.param 2) s = none →
    ∀ a b, a = sourceValue m1 (s.param 1) s → b = sourceValue m2 (s.param 2) s →
      (fits64 (a.toInt + b.toInt) = false →
        exec (.add m1 m2 m3) s = .refused (.resultOutsideI64 (a.toInt + b.toInt))) ∧
      (fits64 (a.toInt * b.toInt) = false →
        exec (.mul m1 m2 m3) s = .refused (.resultOutsideI64 (a.toInt * b.toInt)))) ∧
  (∀ (m1 : Digit) (s : State), s.hasRoom 2 → s.cfg.ovfMode = .refuse → sourceFault m1 (s.param 1) s = none →
    ∀ a, a = sourceValue m1 (s.param 1) s → fits64 (s.rb.toInt + a.toInt) = false →
      exec (.arb m1) s = .refused (.resultOutsideI64 (s.rb.toInt + a.toInt)))

/-- Rules R160, R162, R163 with decisions D7 and D26 (notes/assumptions/12.md), by which both operands are always read and
a bad target leaves `pc` past the instruction: JT is taken if its condition is not 0; only then is the target checked.
In `FollowsRR` the clause for parameter 2 at `ADDR_MAX` rests on decision D4 (notes/assumptions/9.md), the `pc` at a
rejected mode digit on decision D24 (notes/assumptions/13.md), and exact relative addresses on decision D3
(notes/assumptions/8.md). -/
def Obligations.JtJumpsIfNotZero : Prop := FollowsRR .jt fun a => a.toInt ≠ 0

/-- Rules R161, R162, R163 with decisions D7 and D26 (notes/assumptions/12.md), by which both operands are always read and
a bad target leaves `pc` past the instruction: JF is taken if its condition is 0; only then is the target checked.
In `FollowsRR` the clause for parameter 2 at `ADDR_MAX` rests on decision D4 (notes/assumptions/9.md), the `pc` at a
rejected mode digit on decision D24 (notes/assumptions/13.md), and exact relative addresses on decision D3
(notes/assumptions/8.md). -/
def Obligations.JfJumpsIfZero : Prop := FollowsRR .jf fun a => a.toInt = 0

/-- Rule R180 with rule R132: the operand is resolved with the old `rb`, then `rb` becomes the sum, exact where it fits
and wrapped where it does not and `OVF_MODE = wrap` (decision D2, notes/assumptions/7.md); on a fault `rb` is unchanged.
That a relative address is the exact sum, and faults where that is no valid address, is decision D3
(notes/assumptions/8.md); that `pc` is past the parameter after a rejected mode digit is decision D24
(notes/assumptions/13.md). -/
def Obligations.ArbAddsToRelativeBase : Prop :=
  ∀ (m1 : Digit) (s : State), s.hasRoom 2 →
    (∀ f, sourceFault m1 (s.param 1) s = some f →
      exec (.arb m1) s = .next (s.faultAfter 2 (extend s.len (s.pc.toInt + 1)) f)) ∧
    (sourceFault m1 (s.param 1) s = none → ∀ r : Word, ∀ sum, sum = s.rb.toInt + (sourceValue m1 (s.param 1) s).toInt →
      r.toInt = sum ∨ (s.cfg.ovfMode = .wrap ∧ r.toInt = (sum + 2 ^ 63) % 2 ^ 64 - 2 ^ 63) →
      exec (.arb m1) s = .next { s with pc := s.pc + 2, len := s.lenOne m1, rb := r })

/-- Rule R185: HALT sets `STATE` to Halted and leaves `pc` past its word; all mode digits of the word are ignored; it cannot
fault, except that the fetch of its word faults at the top of the address space; `run` returns success; no step of any
agent leaves Halted; and nothing but HALT reaches it. That the fetch at `ADDR_MAX` faults with OutOfBounds(`pc + 1`),
`pc` keeping its value, is decision D4 (notes/assumptions/9.md). -/
def Obligations.HaltFollowsR185 : Prop :=
  (∀ w : Word, 0 ≤ w.toInt → w.toInt % 100 = 99 → decode w = .ok .halt) ∧
  (∀ s : State, s.hasRoom 1 →
    exec .halt s = .next { s with pc := s.pc + 1, len := extend s.len s.pc.toInt, run := .halted }) ∧
  (∀ s : State, 0 ≤ s.pc.toInt → s.pc.toInt = s.cfg.addrMax.val →
    exec .halt s = .next (s.faultAfter 0 (extend s.len s.pc.toInt) (.outOfBounds, s.pc.toInt + 1))) ∧
  (∀ s t : State, s.run = .halted → step s = .next t → t.run = .halted ∧ t.pc = s.pc ∧ t.rb = s.rb) ∧
  (∀ s : State, s.run = .halted → s.runResult = some .success) ∧
  (∀ s t : State, step s = .next t → t.run = .halted → s.run ≠ .halted →
    s.run = .running ∧ decode (s.cell s.pc.toInt) = .ok .halt)

/-- Rules R142, R144 for the bound input port, with decisions D8 and D10 (notes/assumptions/13.md, 18.md): the oldest
queued item is taken, whether or not a sender remains, and stored; if the parameter cannot be consumed (at the top of
the address space, `pc` keeping its value by decision D4, notes/assumptions/9.md) or the destination faults (`pc` past
it by decision D24, notes/assumptions/13.md; a relative address being the exact sum by decision D3,
notes/assumptions/8.md), the item is gone all the same; with nothing queued the instruction faults with InputError if no
sender remains, and otherwise holds, which changes nothing (decision D9 and the model's choice,
notes/assumptions/14.md). -/
def Obligations.InTakesOldestQueuedItem : Prop :=
  ∀ (m1 : Digit) (s : State), s.inBound = true →
    (∀ v rest, s.hasRoom 1 → s.inQueue = v :: rest →
      (s.pc.toInt + 1 = s.cfg.addrMax.val →
        exec (.inp m1) s =
          .next (({ s with inQueue := rest } : State).faultAfter 1 (extend s.len (s.pc.toInt + 1))
            (.outOfBounds, s.pc.toInt + 2))) ∧
      (s.hasRoom 2 → ∀ f, destinationFault m1 (s.param 1) s = some f →
        exec (.inp m1) s =
          .next (({ s with inQueue := rest } : State).faultAfter 2 (extend s.len (s.pc.toInt + 1)) f)) ∧
      (s.hasRoom 2 → ∀ d, effectiveAddress m1 s.rb (s.param 1) = some d → validAddress s.cfg d = true →
        exec (.inp m1) s =
          .next { s with
            pc := s.pc + 2
            len := extend (extend s.len (s.pc.toInt + 1)) d
            mem := s.mem.write d.toNat v
            inQueue := rest })) ∧
    (s.hasRoom 1 → s.inQueue = [] →
      (s.inSenders = 0 →
        exec (.inp m1) s =
          .next { s with
            pc := s.pc + 1
            len := extend s.len s.pc.toInt
            run := .faulted
            cause := some .inputError
            info := none }) ∧
      (s.inSenders ≠ 0 → exec (.inp m1) s = .next s))

/-- Rules R144, R146 for the unbound input port, with decisions D8 and D18 (notes/assumptions/13.md, 19.md): a console line
is a value, a failure closes the port, no line holds, which changes nothing (decision D9 and the model's choice,
notes/assumptions/14.md). The clause at `pc + 1 = ADDR_MAX` rests on decision D4 (notes/assumptions/9.md), the `pc` at a
rejected mode digit on decision D24 (notes/assumptions/13.md), and exact relative addresses on decision D3
(notes/assumptions/8.md). -/
def Obligations.InTakesConsoleLine : Prop :=
  ∀ (m1 : Digit) (s : State), s.inBound = false →
    (∀ v rest, s.hasRoom 1 → s.consoleIn = .value v :: rest →
      (s.pc.toInt + 1 = s.cfg.addrMax.val →
        exec (.inp m1) s =
          .next (({ s with consoleIn := rest } : State).faultAfter 1 (extend s.len (s.pc.toInt + 1))
            (.outOfBounds, s.pc.toInt + 2))) ∧
      (s.hasRoom 2 → ∀ f, destinationFault m1 (s.param 1) s = some f →
        exec (.inp m1) s =
          .next (({ s with consoleIn := rest } : State).faultAfter 2 (extend s.len (s.pc.toInt + 1)) f)) ∧
      (s.hasRoom 2 → ∀ d, effectiveAddress m1 s.rb (s.param 1) = some d → validAddress s.cfg d = true →
        exec (.inp m1) s =
          .next { s with
            pc := s.pc + 2
            len := extend (extend s.len (s.pc.toInt + 1)) d
            mem := s.mem.write d.toNat v
            consoleIn := rest })) ∧
    (∀ rest, s.hasRoom 1 → s.consoleIn = .failure :: rest →
      exec (.inp m1) s =
        .next { s with
          pc := s.pc + 1
          len := extend s.len s.pc.toInt
          run := .faulted
          cause := some .inputError
          info := none }) ∧
    (s.hasRoom 1 → s.consoleIn = [] → exec (.inp m1) s = .next s)

/-- Rules R143, R145 for the bound output port, with decision D25 (notes/assumptions/13.md): the operand's faults come
first, a parameter whose mode digit is rejected counting as consumed (decision D24, notes/assumptions/13.md) and a
relative address being the exact sum (decision D3, notes/assumptions/8.md); then OutputError if the receiver has gone,
whatever the queue; else the value is appended if there is room, and otherwise the instruction holds, which changes
nothing (decision D9 and the model's choice, notes/assumptions/14.md). -/
def Obligations.OutAppendsToChannel : Prop :=
  ∀ (m1 : Digit) (s : State), s.outBound = true → s.hasRoom 2 →
    (∀ f, sourceFault m1 (s.param 1) s = some f →
      exec (.out m1) s = .next (s.faultAfter 2 (extend s.len (s.pc.toInt + 1)) f)) ∧
    (sourceFault m1 (s.param 1) s = none →
      (s.outReceiver = false →
        exec (.out m1) s =
          .next { s with
            pc := s.pc + 2
            len := s.lenOne m1
            run := .faulted
            cause := some .outputError
            info := none }) ∧
      (s.outReceiver = true →
        (s.cfg.outCap.hasRoom s.outQueue.length = true →
          exec (.out m1) s =
            .next { s with
              pc := s.pc + 2
              len := s.lenOne m1
              outQueue := s.outQueue ++ [sourceValue m1 (s.param 1) s] }) ∧
        (s.cfg.outCap.hasRoom s.outQueue.length = false → exec (.out m1) s = .next s)))

/-- Rules R145, R147 for the unbound output port, with decision D18 (notes/assumptions/19.md): the operand's faults come
first, a parameter whose mode digit is rejected counting as consumed (decision D24, notes/assumptions/13.md) and a
relative address being the exact sum (decision D3, notes/assumptions/8.md); then the console always takes the value. -/
def Obligations.OutPrintsOnConsole : Prop :=
  ∀ (m1 : Digit) (s : State), s.outBound = false → s.hasRoom 2 →
    (∀ f, sourceFault m1 (s.param 1) s = some f →
      exec (.out m1) s = .next (s.faultAfter 2 (extend s.len (s.pc.toInt + 1)) f)) ∧
    (sourceFault m1 (s.param 1) s = none →
      exec (.out m1) s =
        .next { s with
          pc := s.pc + 2
          len := s.lenOne m1
          consoleOut := s.consoleOut ++ [sourceValue m1 (s.param 1) s] })

/-! ## Frames, over every form, faulting ones included -/

/-- ADD, MUL, LT, EQ change no cell but the one their third parameter names, no `rb`, no port, no flag, and on a fault no
cell at all (rules R53, R115, R130, R131, R170, R171). -/
def Obligations.FrameOfAddMulLtEq : Prop :=
  ∀ (m1 m2 m3 : Digit) (i : Instr) (s t : State),
    i = .add m1 m2 m3 ∨ i = .mul m1 m2 m3 ∨ i = .lt m1 m2 m3 ∨ i = .eq m1 m2 m3 → exec i s = .next t →
      t.rb = s.rb ∧ s.sameControl t ∧ s.sameInput t ∧ s.sameOutput t ∧ s.sameCellsBut t m3 (s.param 3) ∧
      ((t.run = s.run ∧ t.cause = s.cause ∧ t.info = s.info) ∨
        (t.run = .faulted ∧ t.cause.isSome = true ∧ t.mem = s.mem))

/-- IN changes no cell but the one its parameter names, no `rb`, nothing of the output port, and takes at most the oldest
item of the provider its binding flag selects (rules R28, R142, R144, R146). -/
def Obligations.FrameOfIn : Prop :=
  ∀ (m1 : Digit) (s t : State), exec (.inp m1) s = .next t →
    t.rb = s.rb ∧ s.sameControl t ∧ s.sameOutput t ∧ t.inSenders = s.inSenders ∧
    (t.inQueue = s.inQueue ∨ (s.inBound = true ∧ t.inQueue = s.inQueue.tail)) ∧
    (t.consoleIn = s.consoleIn ∨ (s.inBound = false ∧ t.consoleIn = s.consoleIn.tail)) ∧
    s.sameCellsBut t m1 (s.param 1) ∧
    ((t.run = s.run ∧ t.cause = s.cause ∧ t.info = s.info) ∨
      (t.run = .faulted ∧ t.cause.isSome = true ∧ t.mem = s.mem))

/-- OUT stores to no cell, and changes nothing but `pc`, `LEN`, the fault record, and the tail of what the provider its
binding flag selects has received (rules R28, R143, R145, R147). -/
def Obligations.FrameOfOut : Prop :=
  ∀ (m1 : Digit) (s t : State), exec (.out m1) s = .next t →
    t.rb = s.rb ∧ s.sameControl t ∧ s.sameInput t ∧ t.outReceiver = s.outReceiver ∧ t.outSenders = s.outSenders ∧
    (t.outQueue = s.outQueue ∨ (s.outBound = true ∧ ∃ v, t.outQueue = s.outQueue ++ [v])) ∧
    (t.consoleOut = s.consoleOut ∨ (s.outBound = false ∧ ∃ v, t.consoleOut = s.consoleOut ++ [v])) ∧
    s.sameCells t ∧ s.sameRunOrFaulted t

/-- JT, JF, ARB and HALT store to no cell and leave the ports alone; JT, JF and HALT leave `rb` alone, and so does an ARB
that faults; only HALT halts (rules R24, R160, R161, R180, R185). -/
def Obligations.FrameOfJtJfArbHalt : Prop :=
  ∀ (m1 m2 : Digit) (i : Instr) (s t : State),
    i = .jt m1 m2 ∨ i = .jf m1 m2 ∨ i = .arb m1 ∨ i = .halt → exec i s = .next t →
      s.sameControl t ∧ s.sameInput t ∧ s.sameOutput t ∧ s.sameCells t ∧
      (t.rb = s.rb ∨ (i = .arb m1 ∧ t.run = s.run)) ∧
      (s.sameRunOrFaulted t ∨ (i = .halt ∧ t.run = .halted ∧ t.cause = s.cause ∧ t.info = s.info))

/-! ## The step -/

/-- Rule R110: while `STATE = Running`, with no other agent's move on the agenda, where the word at `pc` decodes to `i`, a
step is `exec i` on that state (which consumes the word itself, notes/assumptions/23.md). -/
def Obligations.StepRunsDecodedInstruction : Prop :=
  ∀ (s : State) (i : Instr), s.run = .running → s.agenda = [] → validAddress s.cfg s.pc.toInt = true →
    decode (s.cell s.pc.toInt) = .ok i → step s = exec i s

/-- Rules R88, R193 (that every negative word is illegal, with the truncated remainder as payload, is decision D5, and that
the payload is the opcode field is decision D22, notes/assumptions/10.md): a word with opcode field 0 or 10 to 98, and
any negative word, faults with UnrecognizedOpcode at dispatch, after the word has been fetched and before any parameter
is consumed. The payload is the opcode field, and for a negative word `trem(w, 100)`. -/
def Obligations.IllegalOpcodesFaultAtDispatch : Prop :=
  ∀ (s : State) (w : Word), s.run = .running → s.agenda = [] → s.hasRoom 1 → w = s.cell s.pc.toInt →
    (w.toInt < 0 ∨ w.toInt % 100 = 0 ∨ (10 ≤ w.toInt % 100 ∧ w.toInt % 100 ≤ 98)) →
      ∃ d, step s = .next (s.faultAfter 1 (extend s.len s.pc.toInt) (.unrecognizedOpcode, d)) ∧
        (0 ≤ w.toInt → d = w.toInt % 100) ∧ (w.toInt < 0 → d = w.toInt - 100 * (w.toInt.tdiv 100))

/-- Rule R23, R199 (1), vector V-TOP-4, decision D4 (notes/assumptions/9.md): at the greatest address the fetch itself
faults, whatever the word there; and an instruction whose first parameter stands at the greatest address faults when
it consumes it. -/
def Obligations.TopOfAddressSpaceFaults : Prop :=
  (∀ s : State, s.run = .running → s.agenda = [] → 0 ≤ s.pc.toInt → s.pc.toInt = s.cfg.addrMax.val →
    step s = .next (s.faultAfter 0 (extend s.len s.pc.toInt) (.outOfBounds, s.pc.toInt + 1))) ∧
  (∀ (i : Instr) (s : State), i.modes ≠ [] → (∀ m, i ≠ .inp m) → 0 ≤ s.pc.toInt →
    s.pc.toInt + 1 = s.cfg.addrMax.val →
    exec i s = .next (s.faultAfter 1 (extend s.len (s.pc.toInt + 1)) (.outOfBounds, s.pc.toInt + 2)))

/-- Rule R64: a store is seen by the very next fetch of the cell, with no fence. -/
def Obligations.StoreIsSeenByNextFetch : Prop :=
  ∀ (a : Int) (v : Word) (i : Instr) (s t : State), s.mem.wf = true → memWrite a v s = .done () t →
    t.run = .running → t.agenda = [] → t.pc.toInt = a → decode v = .ok i → step t = exec i t

/-- Rule R26: the engine executes only while Running; in the other states a step with an empty agenda changes nothing
(that it answers the same state is the model's choice, notes/assumptions/14.md). -/
def Obligations.EngineIdlesUnlessRunning : Prop :=
  ∀ s : State, s.agenda = [] → s.run ≠ .running → step s = .next s

/-! ## Whole-machine rules -/

/-- Every step of every agent, engine, host or environment, keeps the invariant of the machine. -/
def Obligations.StepKeepsInvariant : Prop := ∀ s t : State, s.Inv → step s = .next t → t.Inv

/-- The reset state meets the invariant. -/
def Obligations.ResetMeetsInvariant : Prop := State.reset.Inv

/-- Every load of an image that fits the address space, with legal parameters, meets the invariant (rules R34, R233). -/
def Obligations.LoadMeetsInvariant : Prop :=
  ∀ (cfg : Config) (image : List Word), cfg.legal = true → image.length ≤ cfg.addrMax.val + 1 →
    (State.load cfg image).Inv

/-- Rule R24: nothing but ARB writes `rb`: if a step of any agent changes `rb`, the engine was Running and the word at
`pc` was an ARB. -/
def Obligations.OnlyArbWritesRelativeBase : Prop :=
  ∀ s t : State, step s = .next t → t.rb ≠ s.rb →
    s.run = .running ∧ (s.agenda = [] ∨ s.agenda.head? = some .engine) ∧
      ∃ m, decode (s.cell s.pc.toInt) = .ok (.arb m)

/-- Rules R115, R201: a fault is precise. An instruction that faults has changed no cell and no `rb`, has made no jump and
has sent nothing; it has consumed some number of its own cells. -/
def Obligations.FaultsLeaveWritesUndone : Prop :=
  ∀ (i : Instr) (s t : State), s.run ≠ .faulted → exec i s = .next t → t.run = .faulted →
    t.mem = s.mem ∧ t.rb = s.rb ∧ s.sameOutput t ∧ ∃ c ≤ i.cells, t.pc = s.pc + BitVec.ofNat 64 c

/-- Rules R23, R116, R118, R150: an instruction that completes and is no taken jump advances `pc` by exactly its length in
cells; only IN and OUT can hold, and one that holds changes nothing (that the state answered is then the same is the
model's choice, notes/assumptions/14.md). -/
def Obligations.CompletedInstructionAdvancesByItsLength : Prop :=
  ∀ (i : Instr) (s t : State), s.run = .running → exec i s = .next t → t.run ≠ .faulted →
    (t = s ∧ usesPort i = true) ∨ t.pc = s.pc + BitVec.ofNat 64 i.cells ∨
      ∃ m1 m2, (i = .jt m1 m2 ∨ i = .jf m1 m2) ∧ t.pc = sourceValue m2 (s.param 2) s

/-- Rules R191, R194 to R196: which instruction can raise which kind. InputError: IN only; OutputError: OUT only, and
never with the output port unbound; UnrecognizedOpcode: none; UnrecognizedParameterMode: any with a parameter. -/
def Obligations.FaultKindsByInstruction : Prop :=
  ∀ (i : Instr) (s t : State), s.cause = none → exec i s = .next t →
    (t.cause = some .inputError → ∃ m, i = .inp m) ∧
    (t.cause = some .outputError → (∃ m, i = .out m) ∧ s.outBound = true) ∧
    t.cause ≠ some .unrecognizedOpcode ∧
    (t.cause = some .unrecognizedParameterMode →
      ∃ k, ∃ h : k < i.modes.length, t.info = some ((i.modes[k]'h).val : Int))

/-- Rules R26, R36, R202: Halted and Faulted are absorbing. No step of any agent changes `STATE`, the fault record, `pc` or
`rb` of a stopped engine, so `CAUSE` and `INFO` are written at most once. -/
def Obligations.StoppedEngineStaysStopped : Prop :=
  ∀ s t : State, s.stopped → step s = .next t →
    t.run = s.run ∧ t.cause = s.cause ∧ t.info = s.info ∧ t.pc = s.pc ∧ t.rb = s.rb

/-- Rule R30: `LEN` is not observable: whatever its value, every step answers the same but for `LEN` itself. -/
def Obligations.LenIsUnobservable : Prop :=
  ∀ (s : State) (n : Nat), outcomeWithoutLen (step { s with len := n }) = outcomeWithoutLen (step s)

/-- Rule R30: "`LEN` never decreases", whatever the agent. -/
def Obligations.LenNeverDecreases : Prop := ∀ s t : State, step s = .next t → s.len ≤ t.len

/-- Rules R118, R151, R198: only IN and OUT depend on the ports. Every other instruction does the same whatever waits at
the ports, whoever has gone, and whichever are bound, and leaves all of it alone. -/
def Obligations.OtherInstructionsIgnorePorts : Prop :=
  ∀ (i : Instr) (s p : State), usesPort i = false →
    exec i (s.withPortsOf p) = outcomeWithPortsOf p (exec i s)

/-- Rules R142, R143, R149: each channel is a queue, whoever acts on it. In one instruction the engine takes at most the head
of the input queue and appends at most one value at the tail of the output queue; a step by which the environment acts
appends at the tail (`send`, `sendOut`), removes the head (`receive`, `receiveIn`), or leaves both queues as they are; a
host operation leaves both as they are. So no item is duplicated, dropped, altered or overtaken. -/
def Obligations.ChannelsAreFirstInFirstOut : Prop :=
  (∀ (i : Instr) (s t : State), exec i s = .next t →
    (s.inQueue = t.inQueue ∨ ∃ v, s.inQueue = v :: t.inQueue) ∧
    (t.outQueue = s.outQueue ∨ ∃ v, t.outQueue = s.outQueue ++ [v])) ∧
  (∀ (e : EnvMove) (rest : List Move) (s t : State), s.agenda = .environment e :: rest → step s = .next t →
    (∀ v, e = .send v → t.inQueue = s.inQueue ++ [v] ∧ t.outQueue = s.outQueue) ∧
    (e = .receiveIn → (∃ v, s.inQueue = v :: t.inQueue) ∧ t.outQueue = s.outQueue) ∧
    (∀ v, e = .sendOut v → t.inQueue = s.inQueue ∧ t.outQueue = s.outQueue ++ [v]) ∧
    (e = .receive → t.inQueue = s.inQueue ∧ ∃ v, s.outQueue = v :: t.outQueue) ∧
    ((∀ v, e ≠ .send v) → e ≠ .receiveIn → (∀ v, e ≠ .sendOut v) → e ≠ .receive →
      t.inQueue = s.inQueue ∧ t.outQueue = s.outQueue)) ∧
  (∀ (op : HostOp) (rest : List Move) (s t : State), s.agenda = .host op :: rest → step s = .next t →
    t.inQueue = s.inQueue ∧ t.outQueue = s.outQueue)

/-! ## The host and the environment -/

/-- Rule R66 with decision D14 (notes/assumptions/21.md): the host's `get` and `set` are the memory primitives; a failed
check is returned to the host and changes nothing else; while Running they are refused. -/
def Obligations.HostGetAndSet : Prop :=
  ∀ (a v : Word) (rest : List Move) (s : State), s.agenda = [] →
    (s.run ≠ .running →
      (validAddress s.cfg a.toInt = true →
        step { s with agenda := .host (.get a) :: rest } =
          .next { s with
            agenda := rest
            len := extend s.len a.toInt
            replies := s.replies ++ [.value (s.cell a.toInt)] } ∧
        step { s with agenda := .host (.set a v) :: rest } =
          .next { s with
            agenda := rest
            len := extend s.len a.toInt
            mem := s.mem.write a.toInt.toNat v
            replies := s.replies ++ [.done] }) ∧
      (validAddress s.cfg a.toInt = false →
        ∀ op, op = .get a ∨ op = .set a v →
          step { s with agenda := .host op :: rest } =
            .next { s with agenda := rest, replies := s.replies ++ [.outOfBounds a.toInt] })) ∧
    (s.run = .running →
      ∀ op, op = .get a ∨ op = .set a v →
        step { s with agenda := .host op :: rest } = .refused .hostAccessWhileRunning)

/-- Rules R28, R118, R236 with decisions D13 and D27 (notes/assumptions/21.md): each port is bound at most once and only
in Ready; `run` is accepted once, in Ready; anything else is refused. -/
def Obligations.HostBindsAndRunsOnce : Prop :=
  ∀ (rest : List Move) (s : State), s.agenda = [] →
    (s.run = .ready →
      (s.inBound = false →
        step { s with agenda := .host .bindInput :: rest } =
          .next { s with agenda := rest, inBound := true, replies := s.replies ++ [.done] }) ∧
      (s.inBound = true → step { s with agenda := .host .bindInput :: rest } = .refused .portAlreadyBound) ∧
      (s.outBound = false →
        step { s with agenda := .host .bindOutput :: rest } =
          .next { s with agenda := rest, outBound := true, replies := s.replies ++ [.done] }) ∧
      (s.outBound = true → step { s with agenda := .host .bindOutput :: rest } = .refused .portAlreadyBound) ∧
      step { s with agenda := .host .run :: rest } = .next { s with agenda := rest, run := .running }) ∧
    (s.run ≠ .ready →
      step { s with agenda := .host .bindInput :: rest } = .refused .bindOutsideReady ∧
      step { s with agenda := .host .bindOutput :: rest } = .refused .bindOutsideReady ∧
      step { s with agenda := .host .run :: rest } = .refused .runOutsideReady)

/-- Rules R24, R35, R31, R198: no move of the host or of the environment changes `pc`, `rb`, `CAUSE`, `INFO` or the
parameters; the environment changes no cell, no flag and no run state either. -/
def Obligations.OutsideCannotTouchRegisters : Prop :=
  (∀ (op : HostOp) (rest : List Move) (s t : State), s.agenda = .host op :: rest → step s = .next t →
    t.pc = s.pc ∧ t.rb = s.rb ∧ t.cause = s.cause ∧ t.info = s.info ∧ t.cfg = s.cfg) ∧
  (∀ (e : EnvMove) (rest : List Move) (s t : State), s.agenda = .environment e :: rest → step s = .next t →
    t.pc = s.pc ∧ t.rb = s.rb ∧ t.cause = s.cause ∧ t.info = s.info ∧ t.cfg = s.cfg ∧ t.mem = s.mem ∧
      t.len = s.len ∧ t.run = s.run ∧ t.inBound = s.inBound ∧ t.outBound = s.outBound)

/-- Rule R150, for IN: what lifts a hold. An IN that holds on a bound port completes after a sender appends an item, and
faults with InputError after the last sender goes away; one that holds on the unbound port completes after the console
delivers a line that is an integer, and faults with InputError after the console fails (rule R146 with decision D18,
notes/assumptions/19.md). `PeerLiftsHoldOnOut` is the other half. That a held step answers the same state is the
model's choice (decision D9, notes/assumptions/14.md), and so is the agenda in which the peer's move stands
(notes/assumptions/5.md). -/
def Obligations.PeerLiftsHoldOnIn : Prop :=
  ∀ (m1 : Digit) (d : Int) (v : Word) (s : State), s.run = .running → s.hasRoom 2 →
    decode (s.cell s.pc.toInt) = .ok (.inp m1) → effectiveAddress m1 s.rb (s.param 1) = some d →
    validAddress s.cfg d = true →
      ∀ stored failed : State,
        stored =
          { s with
            agenda := []
            pc := s.pc + 2
            len := extend (extend s.len (s.pc.toInt + 1)) d
            mem := s.mem.write d.toNat v } →
        failed =
          { s with
            agenda := []
            pc := s.pc + 1
            len := extend s.len s.pc.toInt
            run := .faulted
            cause := some .inputError
            info := none } →
        (s.inBound = true → s.inQueue = [] → s.inSenders = 1 → s.cfg.inCap.hasRoom 0 = true →
          step { s with agenda := [] } = .next { s with agenda := [] } ∧
          (∃ u, step { s with agenda := [.environment (.send v)] } = .next u ∧ step u = .next stored) ∧
          (∃ u, step { s with agenda := [.environment .dropSender] } = .next u ∧
            step u = .next { failed with inSenders := 0 })) ∧
        (s.inBound = false → s.consoleIn = [] →
          step { s with agenda := [] } = .next { s with agenda := [] } ∧
          (∃ u, step { s with agenda := [.environment (.consoleLine (.value v))] } = .next u ∧
            step u = .next stored) ∧
          (∃ u, step { s with agenda := [.environment (.consoleLine .failure)] } = .next u ∧
            step u = .next { failed with consoleIn := [.failure] }))

/-! ## Load -/

/-- Rule R34 (that `STATE` is Ready is decision D13, notes/assumptions/2.md): after the load of an image, `pc` and `rb` are 0, the image stands from address 0 on, every other
cell holds 0, `LEN` is the length of the image, `STATE` is Ready, `CAUSE` and `INFO` have no value, and both ports are
unbound. -/
def Obligations.LoadFollowsR34 : Prop :=
  ∀ (cfg : Config) (image : List Word), image ≠ [] → image.length ≤ cfg.addrMax.val + 1 →
    ∀ s, s = State.load cfg image →
      s.pc = 0 ∧ s.rb = 0 ∧ (∀ a (h : a < image.length), s.mem.read a = image[a]'h) ∧
      (∀ a, image.length ≤ a → s.mem.read a = 0) ∧ s.len = image.length ∧ s.run = .ready ∧ s.cause = none ∧
      s.info = none ∧ s.inBound = false ∧ s.outBound = false ∧ s.cfg = cfg

/-- Rules R231, R232 with decision D17 (notes/assumptions/20.md): which image a text denotes. The comma-separated decimal
text of every image of 1 to `ADDR_MAX + 1` integers is read as exactly that image, with or without one line feed after
it, and with CR LF exactly where `CRLF_OK` is set; the text of a longer image is a ParseError; what is loaded is that
image in the reset state. Conversely, whatever the loader accepts is an image of at least one integer that fits the
address space, and a line feed after a text that has none changes nothing. -/
def Obligations.LoaderAcceptsFittingImages : Prop :=
  (∀ (cfg : Config) (image : List Word), image ≠ [] → image.length ≤ cfg.addrMax.val + 1 →
    parseProgram cfg (imageText image) = .ok image ∧
    parseProgram cfg (imageText image ++ ['\n']) = .ok image ∧
    parseProgram cfg (imageText image ++ ['\r', '\n']) = (if cfg.crlfOk then .ok image else .error .parseError) ∧
    loadText cfg (imageText image) = .ok (State.load cfg image)) ∧
  (∀ (cfg : Config) (image : List Word), cfg.addrMax.val + 1 < image.length →
    parseProgram cfg (imageText image) = .error .parseError) ∧
  (∀ (cfg : Config) (text : List Char) (image : List Word), parseProgram cfg text = .ok image →
    image ≠ [] ∧ image.length ≤ cfg.addrMax.val + 1 ∧
      (text.getLast? ≠ some '\n' → parseProgram cfg (text ++ ['\n']) = .ok image))

/-- Rules R231, R232 with decision D17 (notes/assumptions/20.md), as an equivalence: a text is accepted, with an image,
exactly if it is integers separated by single commas and at most one terminator (LF, or CR LF where `CRLF_OK` is set),
each integer an optional `-` and one or more decimal digits that denote the image's word, and the image fits the
address space. So leading zeros and `-0` are accepted, and everything else is a ParseError, integers outside `i64`
included. -/
def Obligations.LoaderAcceptsExactlyTheGrammar : Prop :=
  ∀ (cfg : Config) (text : List Char) (image : List Word), parseProgram cfg text = .ok image ↔
    ∃ (fields : List (List Char)) (terminator : List Char),
      text = [','].intercalate fields ++ terminator ∧
      (terminator = [] ∨ terminator = ['\n'] ∨ (cfg.crlfOk = true ∧ terminator = ['\r', '\n'])) ∧
      fields ≠ [] ∧ List.Forall₂ IntegerText fields image ∧ image.length ≤ cfg.addrMax.val + 1

/-! ## The far ends of the channels -/

/-- Rule R150, for OUT: an OUT that holds on a full channel completes after the receiver removes an item, its value
joining the tail, and faults with OutputError after the receiver goes away. That a held step answers the same state is
the model's choice (decision D9, notes/assumptions/14.md), and so is the agenda in which the peer's move stands
(notes/assumptions/5.md); that the failed value is delivered to nobody is decision D25 (notes/assumptions/13.md). -/
def Obligations.PeerLiftsHoldOnOut : Prop :=
  ∀ (m1 : Digit) (x : Word) (queue : List Word) (s : State), s.run = .running → s.outBound = true →
    s.outReceiver = true → s.outQueue = x :: queue → s.cfg.outCap = .items (queue.length + 1) → s.hasRoom 2 →
    decode (s.cell s.pc.toInt) = .ok (.out m1) → sourceFault m1 (s.param 1) s = none →
      step { s with agenda := [] } = .next { s with agenda := [] } ∧
      (∃ u, step { s with agenda := [.environment .receive] } = .next u ∧
        step u =
          .next { s with
            agenda := []
            pc := s.pc + 2
            len := s.lenOne m1
            outQueue := queue ++ [sourceValue m1 (s.param 1) s] }) ∧
      (∃ u, step { s with agenda := [.environment .dropReceiver] } = .next u ∧
        step u =
          .next { s with
            agenda := []
            outReceiver := false
            pc := s.pc + 2
            len := s.lenOne m1
            run := .faulted
            cause := some .outputError
            info := none })

/-- Rules R142, R143, R146, R148, R208: what peers, host and console can do at the far ends of the two ports, and when. A
live sender may append to a channel that has room, be cloned, or go away; on the output channel that is a sender other
than the engine's, and before `bindOutput` also the one that is to be bound, which may append and be cloned but is not
dropped; the receiver of the output channel may remove its head or go away; the host may remove the head of the input
channel while the receiver is not with a live engine (before `bindInput`, and after the engine has stopped); the
console may deliver a line or fail at any time, behind what it has delivered. Every other move is refused, which is
the model's choice (notes/assumptions/6.md), and so are the fields, the list of console lines among them
(notes/assumptions/4.md), and the agenda (notes/assumptions/5.md); that a line is an integer or a failure is decision
D18 (notes/assumptions/19.md). That `send` has its effect also after the engine has stopped, the host never discarding
the engine's endpoints, is the model's choice (notes/assumptions/24.md). -/
def Obligations.PeersActOnTheChannels : Prop :=
  ∀ (v : Word) (s : State),
    (s.inSenders ≠ 0 →
      (s.cfg.inCap.hasRoom s.inQueue.length = true →
        move (.environment (.send v)) s = .next { s with inQueue := s.inQueue ++ [v] }) ∧
      (s.cfg.inCap.hasRoom s.inQueue.length = false →
        move (.environment (.send v)) s = .refused .environmentMoveImpossible) ∧
      move (.environment .cloneSender) s = .next { s with inSenders := s.inSenders + 1 } ∧
      move (.environment .dropSender) s = .next { s with inSenders := s.inSenders - 1 }) ∧
    (s.inSenders = 0 → ∀ e, e = .send v ∨ e = .cloneSender ∨ e = .dropSender →
      move (.environment e) s = .refused .environmentMoveImpossible) ∧
    (s.outSenders ≠ 0 ∨ s.outBound = false →
      (s.outReceiver = true → s.cfg.outCap.hasRoom s.outQueue.length = true →
        move (.environment (.sendOut v)) s = .next { s with outQueue := s.outQueue ++ [v] }) ∧
      (s.outReceiver = false ∨ s.cfg.outCap.hasRoom s.outQueue.length = false →
        move (.environment (.sendOut v)) s = .refused .environmentMoveImpossible) ∧
      move (.environment .cloneOutSender) s = .next { s with outSenders := s.outSenders + 1 }) ∧
    (s.outSenders = 0 → s.outBound = true → ∀ e, e = .sendOut v ∨ e = .cloneOutSender →
      move (.environment e) s = .refused .environmentMoveImpossible) ∧
    (s.outSenders ≠ 0 → move (.environment .dropOutSender) s = .next { s with outSenders := s.outSenders - 1 }) ∧
    (s.outSenders = 0 → move (.environment .dropOutSender) s = .refused .environmentMoveImpossible) ∧
    (∀ x queue, s.outReceiver = true → s.outQueue = x :: queue →
      move (.environment .receive) s = .next { s with outQueue := queue }) ∧
    (s.outReceiver = false ∨ s.outQueue = [] →
      move (.environment .receive) s = .refused .environmentMoveImpossible) ∧
    (s.outReceiver = true → move (.environment .dropReceiver) s = .next { s with outReceiver := false }) ∧
    (s.outReceiver = false → move (.environment .dropReceiver) s = .refused .environmentMoveImpossible) ∧
    (∀ x queue, s.inBound = false ∨ s.run = .halted ∨ s.run = .faulted → s.inQueue = x :: queue →
      move (.environment .receiveIn) s = .next { s with inQueue := queue }) ∧
    (s.inQueue = [] ∨ (s.inBound = true ∧ (s.run = .ready ∨ s.run = .running)) →
      move (.environment .receiveIn) s = .refused .environmentMoveImpossible) ∧
    (∀ l, move (.environment (.consoleLine l)) s = .next { s with consoleIn := s.consoleIn ++ [l] })

/-- Rules R143, R148, R208 with decision D23 (`OUT_CAP`): an item that another sender has put into the output channel takes
up room there. An OUT that would complete on a channel with room for one more item holds once a cloned sender has
filled it, and its value goes behind that item once the receiver has removed one. The agenda, and a held step that
answers the same state, are the model's choices (notes/assumptions/5.md, 14.md). -/
def Obligations.ForeignItemsFillTheOutputChannel : Prop :=
  ∀ (m1 : Digit) (x v : Word) (queue : List Word) (s : State), s.run = .running → s.outBound = true →
    s.outReceiver = true → s.outSenders ≠ 0 → s.outQueue = x :: queue →
    s.cfg.outCap = .items (queue.length + 2) → s.hasRoom 2 → decode (s.cell s.pc.toInt) = .ok (.out m1) →
    sourceFault m1 (s.param 1) s = none →
      ∃ u w, step { s with agenda := [.environment (.sendOut v), .engine, .environment .receive] } = .next u ∧
        step u = .next { u with agenda := [.environment .receive] } ∧
        step { u with agenda := [.environment .receive] } = .next w ∧
        step w =
          .next { s with
            agenda := []
            pc := s.pc + 2
            len := s.lenOne m1
            outQueue := queue ++ [v, sourceValue m1 (s.param 1) s] }
end

