-- ==== Sys2Proof/Laws/Memory.lean ====
section
/-!
SUPPORT. The laws of memory: read after write, and that every operation keeps the canonical form.
-/

namespace Sys2Proof.Machine

/-- Every listed address is at or above `a`. -/
def Memory.from (a : Nat) (m : Memory) : Prop := ∀ c ∈ m, a ≤ c.1

theorem Memory.wf_cons {a : Nat} {v : Word} {m : Memory} :
    Memory.wf ((a, v) :: m) = true ↔ v ≠ 0 ∧ Memory.from (a + 1) m ∧ m.wf = true := by
  simp only [Memory.wf, Bool.and_eq_true, decide_eq_true_eq, List.all_eq_true, and_assoc]
  exact Iff.rfl

theorem Memory.read_of_below {m : Memory} {a b : Nat} (h : Memory.from b m) (hab : a < b) : m.read a = 0 := by
  induction m with
  | nil => rfl
  | cons c m ih =>
    obtain ⟨x, v⟩ := c
    have hx : b ≤ x := h (x, v) (by simp)
    have : x ≠ a := by omega
    simp only [Memory.read, this, if_false]
    exact ih fun c hc => h c (by simp [hc])

/-- Writing an address leaves every other one alone (rule R53). -/
theorem Memory.read_write_ne (m : Memory) {a b : Nat} (v : Word) (h : b ≠ a) : (m.write a v).read b = m.read b := by
  have h' : a ≠ b := fun e => h e.symm
  induction m with
  | nil => by_cases hv : v = Memory.unlisted <;> simp [Memory.write, Memory.read, hv, h']
  | cons c m ih =>
    obtain ⟨x, w⟩ := c
    by_cases h1 : a < x
    · by_cases hv : v = Memory.unlisted <;> simp [Memory.write, Memory.read, h1, hv, h']
    · by_cases h2 : a = x
      · subst h2
        by_cases hv : v = Memory.unlisted <;> simp [Memory.write, Memory.read, hv, h']
      · simp [Memory.write, Memory.read, h1, h2, ih]

/-- Reading back what was written (rule R53). -/
theorem Memory.read_write_self {m : Memory} (hm : m.wf = true) (a : Nat) (v : Word) : (m.write a v).read a = v := by
  induction m with
  | nil => by_cases hv : v = Memory.unlisted <;> simp [Memory.write, Memory.read, hv]
  | cons c m ih =>
    obtain ⟨x, w⟩ := c
    obtain ⟨hw, hfrom, hm'⟩ := Memory.wf_cons.1 hm
    by_cases h1 : a < x
    · by_cases hv : v = Memory.unlisted
      · have hx : x ≠ a := by omega
        simp only [Memory.write, h1, hv, if_true, Memory.read, hx, if_false]
        exact Memory.read_of_below hfrom (by omega)
      · simp [Memory.write, Memory.read, h1, hv]
    · by_cases h2 : a = x
      · subst h2
        by_cases hv : v = Memory.unlisted
        · simp only [Memory.write, lt_irrefl, if_false, if_true, hv]
          exact Memory.read_of_below hfrom (by omega)
        · simp [Memory.write, Memory.read, hv]
      · have hx : x ≠ a := fun e => h2 e.symm
        simp [Memory.write, Memory.read, h1, h2, hx, ih hm']

theorem Memory.from_write {m : Memory} {b a : Nat} (v : Word) (h : Memory.from b m) (hab : b ≤ a) :
    Memory.from b (m.write a v) := by
  induction m with
  | nil => by_cases hv : v = Memory.unlisted <;> simp [Memory.write, Memory.from, hv, hab]
  | cons c m ih =>
    obtain ⟨x, w⟩ := c
    have hx : b ≤ x := h (x, w) (by simp)
    have hm : Memory.from b m := fun c hc => h c (by simp [hc])
    by_cases h1 : a < x
    · by_cases hv : v = Memory.unlisted
      · simpa [Memory.write, h1, hv] using h
      · simp only [Memory.write, h1, hv, if_true, if_false]
        intro c hc
        rcases List.mem_cons.1 hc with rfl | hc
        · exact hab
        · exact h c hc
    · by_cases h2 : a = x
      · subst h2
        by_cases hv : v = Memory.unlisted
        · simpa [Memory.write, hv] using hm
        · simp only [Memory.write, lt_irrefl, if_false, if_true, hv]
          intro c hc
          rcases List.mem_cons.1 hc with rfl | hc
          · exact hab
          · exact hm c hc
      · simp only [Memory.write, h1, h2, if_false]
        intro c hc
        rcases List.mem_cons.1 hc with rfl | hc
        · exact hx
        · exact ih hm c hc

/-- A write keeps the canonical form. -/
theorem Memory.wf_write {m : Memory} (hm : m.wf = true) (a : Nat) (v : Word) : (m.write a v).wf = true := by
  induction m with
  | nil =>
    by_cases hv : v = Memory.unlisted
    · simp [Memory.write, hv, Memory.wf]
    · simp [Memory.write, hv, Memory.wf]
  | cons c m ih =>
    obtain ⟨x, w⟩ := c
    obtain ⟨hw, hfrom, hm'⟩ := Memory.wf_cons.1 hm
    by_cases h1 : a < x
    · by_cases hv : v = Memory.unlisted
      · simpa [Memory.write, h1, hv] using hm
      · simp only [Memory.write, h1, hv, if_true, if_false]
        refine Memory.wf_cons.2 ⟨hv, ?_, hm⟩
        intro c hc
        rcases List.mem_cons.1 hc with rfl | hc
        · exact h1
        · have := hfrom c hc; omega
    · by_cases h2 : a = x
      · subst h2
        by_cases hv : v = Memory.unlisted
        · simpa [Memory.write, hv] using hm'
        · simp only [Memory.write, lt_irrefl, if_false, if_true, hv]
          exact Memory.wf_cons.2 ⟨hv, hfrom, hm'⟩
      · simp only [Memory.write, h1, h2, if_false]
        exact Memory.wf_cons.2 ⟨hw, Memory.from_write v hfrom (by omega), ih hm'⟩

/-- Placing cells keeps the canonical form. -/
theorem wf_placeCells (vs : List Word) {m : Memory} (hm : m.wf = true) (a : Nat) : (placeCells a vs m).wf = true := by
  induction vs generalizing a m with
  | nil => exact hm
  | cons v vs ih => exact ih (Memory.wf_write hm a v) (a + 1)

/-- Placed cells read back, and every other cell is as it was. -/
theorem read_placeCells (vs : List Word) {m : Memory} (hm : m.wf = true) (a b : Nat) :
    (placeCells a vs m).read b = if a ≤ b ∧ b < a + vs.length then vs.getD (b - a) 0 else m.read b := by
  induction vs generalizing a m with
  | nil =>
    have : ¬ (a ≤ b ∧ b < a) := by omega
    simp [placeCells, this]
  | cons v vs ih =>
    rw [placeCells, ih (Memory.wf_write hm a v) (a + 1)]
    by_cases hb : b = a
    · subst hb
      have h1 : ¬ (b + 1 ≤ b ∧ b < b + 1 + vs.length) := by omega
      have h2 : b ≤ b ∧ b < b + (v :: vs).length := by simp
      rw [if_neg h1, if_pos h2, Memory.read_write_self hm]
      simp
    · rw [Memory.read_write_ne m v hb]
      by_cases h1 : a + 1 ≤ b ∧ b < a + 1 + vs.length
      · have h2 : a ≤ b ∧ b < a + (v :: vs).length := by simp only [List.length_cons]; omega
        rw [if_pos h1, if_pos h2]
        obtain ⟨k, rfl⟩ : ∃ k, b = a + 1 + k := ⟨b - (a + 1), by omega⟩
        have e1 : a + 1 + k - (a + 1) = k := by omega
        have e2 : a + 1 + k - a = k + 1 := by omega
        rw [e1, e2, List.getD_cons_succ]
      · have h2 : ¬ (a ≤ b ∧ b < a + (v :: vs).length) := by simp only [List.length_cons]; omega
        rw [if_neg h1, if_neg h2]

/-- A write below `n` keeps the cells from `n` on. -/
theorem Memory.below_write {m : Memory} {n a : Nat} (v : Word) (h : ∀ b, n ≤ b → m.read b = 0) (ha : a < n) :
    ∀ b, n ≤ b → (m.write a v).read b = 0 := fun b hb => by
  rw [Memory.read_write_ne m v (by omega)]; exact h b hb

end Sys2Proof.Machine
end

