-- ==== Sys2Proof/Laws/State.lean ====
section
/-!
SUPPORT. One lemma per field per named update of the state, so that no later proof unfolds a record update.
-/

namespace Sys2Proof.Machine

/-! ## `raise` -/

@[simp] theorem raise_pc (k : Cause) (i : Option Int) (s : State) : (raise k i s).pc = s.pc := rfl
@[simp] theorem raise_rb (k : Cause) (i : Option Int) (s : State) : (raise k i s).rb = s.rb := rfl
@[simp] theorem raise_mem (k : Cause) (i : Option Int) (s : State) : (raise k i s).mem = s.mem := rfl
@[simp] theorem raise_len (k : Cause) (i : Option Int) (s : State) : (raise k i s).len = s.len := rfl
@[simp] theorem raise_run (k : Cause) (i : Option Int) (s : State) : (raise k i s).run = .faulted := rfl
@[simp] theorem raise_cause (k : Cause) (i : Option Int) (s : State) : (raise k i s).cause = some k := rfl
@[simp] theorem raise_info (k : Cause) (i : Option Int) (s : State) : (raise k i s).info = i := rfl
@[simp] theorem raise_inBound (k : Cause) (i : Option Int) (s : State) : (raise k i s).inBound = s.inBound := rfl
@[simp] theorem raise_outBound (k : Cause) (i : Option Int) (s : State) : (raise k i s).outBound = s.outBound := rfl
@[simp] theorem raise_cfg (k : Cause) (i : Option Int) (s : State) : (raise k i s).cfg = s.cfg := rfl
@[simp] theorem raise_inQueue (k : Cause) (i : Option Int) (s : State) : (raise k i s).inQueue = s.inQueue := rfl
@[simp] theorem raise_inSenders (k : Cause) (i : Option Int) (s : State) : (raise k i s).inSenders = s.inSenders := rfl
@[simp] theorem raise_outQueue (k : Cause) (i : Option Int) (s : State) : (raise k i s).outQueue = s.outQueue := rfl
@[simp] theorem raise_outReceiver (k : Cause) (i : Option Int) (s : State) : (raise k i s).outReceiver = s.outReceiver := rfl
@[simp] theorem raise_outSenders (k : Cause) (i : Option Int) (s : State) : (raise k i s).outSenders = s.outSenders := rfl
@[simp] theorem raise_consoleIn (k : Cause) (i : Option Int) (s : State) : (raise k i s).consoleIn = s.consoleIn := rfl
@[simp] theorem raise_consoleOut (k : Cause) (i : Option Int) (s : State) : (raise k i s).consoleOut = s.consoleOut := rfl
@[simp] theorem raise_replies (k : Cause) (i : Option Int) (s : State) : (raise k i s).replies = s.replies := rfl
@[simp] theorem raise_agenda (k : Cause) (i : Option Int) (s : State) : (raise k i s).agenda = s.agenda := rfl

/-! ## `reply` -/

@[simp] theorem reply_pc (r : HostReply) (s : State) : (reply r s).pc = s.pc := rfl
@[simp] theorem reply_rb (r : HostReply) (s : State) : (reply r s).rb = s.rb := rfl
@[simp] theorem reply_mem (r : HostReply) (s : State) : (reply r s).mem = s.mem := rfl
@[simp] theorem reply_len (r : HostReply) (s : State) : (reply r s).len = s.len := rfl
@[simp] theorem reply_run (r : HostReply) (s : State) : (reply r s).run = s.run := rfl
@[simp] theorem reply_cause (r : HostReply) (s : State) : (reply r s).cause = s.cause := rfl
@[simp] theorem reply_info (r : HostReply) (s : State) : (reply r s).info = s.info := rfl
@[simp] theorem reply_inBound (r : HostReply) (s : State) : (reply r s).inBound = s.inBound := rfl
@[simp] theorem reply_outBound (r : HostReply) (s : State) : (reply r s).outBound = s.outBound := rfl
@[simp] theorem reply_cfg (r : HostReply) (s : State) : (reply r s).cfg = s.cfg := rfl
@[simp] theorem reply_inQueue (r : HostReply) (s : State) : (reply r s).inQueue = s.inQueue := rfl
@[simp] theorem reply_inSenders (r : HostReply) (s : State) : (reply r s).inSenders = s.inSenders := rfl
@[simp] theorem reply_outQueue (r : HostReply) (s : State) : (reply r s).outQueue = s.outQueue := rfl
@[simp] theorem reply_outReceiver (r : HostReply) (s : State) : (reply r s).outReceiver = s.outReceiver := rfl
@[simp] theorem reply_outSenders (r : HostReply) (s : State) : (reply r s).outSenders = s.outSenders := rfl
@[simp] theorem reply_consoleIn (r : HostReply) (s : State) : (reply r s).consoleIn = s.consoleIn := rfl
@[simp] theorem reply_consoleOut (r : HostReply) (s : State) : (reply r s).consoleOut = s.consoleOut := rfl
@[simp] theorem reply_replies (r : HostReply) (s : State) : (reply r s).replies = s.replies ++ [r] := rfl
@[simp] theorem reply_agenda (r : HostReply) (s : State) : (reply r s).agenda = s.agenda := rfl

/-! ## `faultAfter` -/

@[simp] theorem faultAfter_pc (c n : Nat) (f : Cause × Int) (s : State) : (s.faultAfter c n f).pc = s.pc + BitVec.ofNat 64 c := rfl
@[simp] theorem faultAfter_rb (c n : Nat) (f : Cause × Int) (s : State) : (s.faultAfter c n f).rb = s.rb := rfl
@[simp] theorem faultAfter_mem (c n : Nat) (f : Cause × Int) (s : State) : (s.faultAfter c n f).mem = s.mem := rfl
@[simp] theorem faultAfter_len (c n : Nat) (f : Cause × Int) (s : State) : (s.faultAfter c n f).len = n := rfl
@[simp] theorem faultAfter_run (c n : Nat) (f : Cause × Int) (s : State) : (s.faultAfter c n f).run = .faulted := rfl
@[simp] theorem faultAfter_cause (c n : Nat) (f : Cause × Int) (s : State) : (s.faultAfter c n f).cause = some f.1 := rfl
@[simp] theorem faultAfter_info (c n : Nat) (f : Cause × Int) (s : State) : (s.faultAfter c n f).info = some f.2 := rfl
@[simp] theorem faultAfter_inBound (c n : Nat) (f : Cause × Int) (s : State) : (s.faultAfter c n f).inBound = s.inBound := rfl
@[simp] theorem faultAfter_outBound (c n : Nat) (f : Cause × Int) (s : State) : (s.faultAfter c n f).outBound = s.outBound := rfl
@[simp] theorem faultAfter_cfg (c n : Nat) (f : Cause × Int) (s : State) : (s.faultAfter c n f).cfg = s.cfg := rfl
@[simp] theorem faultAfter_inQueue (c n : Nat) (f : Cause × Int) (s : State) : (s.faultAfter c n f).inQueue = s.inQueue := rfl
@[simp] theorem faultAfter_inSenders (c n : Nat) (f : Cause × Int) (s : State) : (s.faultAfter c n f).inSenders = s.inSenders := rfl
@[simp] theorem faultAfter_outQueue (c n : Nat) (f : Cause × Int) (s : State) : (s.faultAfter c n f).outQueue = s.outQueue := rfl
@[simp] theorem faultAfter_outReceiver (c n : Nat) (f : Cause × Int) (s : State) : (s.faultAfter c n f).outReceiver = s.outReceiver := rfl
@[simp] theorem faultAfter_outSenders (c n : Nat) (f : Cause × Int) (s : State) : (s.faultAfter c n f).outSenders = s.outSenders := rfl
@[simp] theorem faultAfter_consoleIn (c n : Nat) (f : Cause × Int) (s : State) : (s.faultAfter c n f).consoleIn = s.consoleIn := rfl
@[simp] theorem faultAfter_consoleOut (c n : Nat) (f : Cause × Int) (s : State) : (s.faultAfter c n f).consoleOut = s.consoleOut := rfl
@[simp] theorem faultAfter_replies (c n : Nat) (f : Cause × Int) (s : State) : (s.faultAfter c n f).replies = s.replies := rfl
@[simp] theorem faultAfter_agenda (c n : Nat) (f : Cause × Int) (s : State) : (s.faultAfter c n f).agenda = s.agenda := rfl

/-! ## Forgetting `LEN` -/

@[simp] theorem withoutLen_pc  (s : State) : (s.withoutLen).pc = s.pc := rfl
@[simp] theorem withoutLen_rb  (s : State) : (s.withoutLen).rb = s.rb := rfl
@[simp] theorem withoutLen_mem  (s : State) : (s.withoutLen).mem = s.mem := rfl
@[simp] theorem withoutLen_len  (s : State) : (s.withoutLen).len = 0 := rfl
@[simp] theorem withoutLen_run  (s : State) : (s.withoutLen).run = s.run := rfl
@[simp] theorem withoutLen_cause  (s : State) : (s.withoutLen).cause = s.cause := rfl
@[simp] theorem withoutLen_info  (s : State) : (s.withoutLen).info = s.info := rfl
@[simp] theorem withoutLen_inBound  (s : State) : (s.withoutLen).inBound = s.inBound := rfl
@[simp] theorem withoutLen_outBound  (s : State) : (s.withoutLen).outBound = s.outBound := rfl
@[simp] theorem withoutLen_cfg  (s : State) : (s.withoutLen).cfg = s.cfg := rfl
@[simp] theorem withoutLen_inQueue  (s : State) : (s.withoutLen).inQueue = s.inQueue := rfl
@[simp] theorem withoutLen_inSenders  (s : State) : (s.withoutLen).inSenders = s.inSenders := rfl
@[simp] theorem withoutLen_outQueue  (s : State) : (s.withoutLen).outQueue = s.outQueue := rfl
@[simp] theorem withoutLen_outReceiver  (s : State) : (s.withoutLen).outReceiver = s.outReceiver := rfl
@[simp] theorem withoutLen_outSenders  (s : State) : (s.withoutLen).outSenders = s.outSenders := rfl
@[simp] theorem withoutLen_consoleIn  (s : State) : (s.withoutLen).consoleIn = s.consoleIn := rfl
@[simp] theorem withoutLen_consoleOut  (s : State) : (s.withoutLen).consoleOut = s.consoleOut := rfl
@[simp] theorem withoutLen_replies  (s : State) : (s.withoutLen).replies = s.replies := rfl
@[simp] theorem withoutLen_agenda  (s : State) : (s.withoutLen).agenda = s.agenda := rfl

/-! ## The state after load -/

@[simp] theorem load_pc (cfg : Config) (image : List Word) : (State.load cfg image).pc = State.reset.pc := rfl
@[simp] theorem load_rb (cfg : Config) (image : List Word) : (State.load cfg image).rb = State.reset.rb := rfl
@[simp] theorem load_mem (cfg : Config) (image : List Word) : (State.load cfg image).mem = placeCells 0 image [] := rfl
@[simp] theorem load_len (cfg : Config) (image : List Word) : (State.load cfg image).len = image.length := rfl
@[simp] theorem load_run (cfg : Config) (image : List Word) : (State.load cfg image).run = State.reset.run := rfl
@[simp] theorem load_cause (cfg : Config) (image : List Word) : (State.load cfg image).cause = State.reset.cause := rfl
@[simp] theorem load_info (cfg : Config) (image : List Word) : (State.load cfg image).info = State.reset.info := rfl
@[simp] theorem load_inBound (cfg : Config) (image : List Word) : (State.load cfg image).inBound = State.reset.inBound := rfl
@[simp] theorem load_outBound (cfg : Config) (image : List Word) : (State.load cfg image).outBound = State.reset.outBound := rfl
@[simp] theorem load_cfg (cfg : Config) (image : List Word) : (State.load cfg image).cfg = cfg := rfl
@[simp] theorem load_inQueue (cfg : Config) (image : List Word) : (State.load cfg image).inQueue = State.reset.inQueue := rfl
@[simp] theorem load_inSenders (cfg : Config) (image : List Word) : (State.load cfg image).inSenders = State.reset.inSenders := rfl
@[simp] theorem load_outQueue (cfg : Config) (image : List Word) : (State.load cfg image).outQueue = State.reset.outQueue := rfl
@[simp] theorem load_outReceiver (cfg : Config) (image : List Word) : (State.load cfg image).outReceiver = State.reset.outReceiver := rfl
@[simp] theorem load_outSenders (cfg : Config) (image : List Word) : (State.load cfg image).outSenders = State.reset.outSenders := rfl
@[simp] theorem load_consoleIn (cfg : Config) (image : List Word) : (State.load cfg image).consoleIn = State.reset.consoleIn := rfl
@[simp] theorem load_consoleOut (cfg : Config) (image : List Word) : (State.load cfg image).consoleOut = State.reset.consoleOut := rfl
@[simp] theorem load_replies (cfg : Config) (image : List Word) : (State.load cfg image).replies = State.reset.replies := rfl
@[simp] theorem load_agenda (cfg : Config) (image : List Word) : (State.load cfg image).agenda = State.reset.agenda := rfl

end Sys2Proof.Machine
end

