-- ==== Sys2Proof/Laws/Ops.lean ====
section
/-!
SUPPORT. What each shared operation can do, said once: how a flow runs on, what the primitives of rule R10 answer,
and what every operand form answers. Later proofs cite these and do not unfold the operations.
-/

namespace Sys2Proof.Machine

/-! ## Flows -/

section
variable {α β : Type} (f : α → State → Flow β)

@[simp] theorem Flow.bind_done (a : α) (s : State) : (Flow.done a s).bind f = f a s := rfl
@[simp] theorem Flow.bind_raised (s : State) : (Flow.raised s).bind f = .raised s := rfl
@[simp] theorem Flow.bind_held : (Flow.held).bind f = .held := rfl
@[simp] theorem Flow.bind_refused (r : Refusal) : (Flow.refused r).bind f = .refused r := rfl

end

@[simp] theorem Flow.outcome_done (s₀ s : State) : (Flow.done () s).outcome s₀ = .next s := rfl
@[simp] theorem Flow.outcome_raised (s₀ s : State) : (Flow.raised s).outcome s₀ = .next s := rfl
@[simp] theorem Flow.outcome_held (s₀ : State) : (Flow.held).outcome s₀ = .next s₀ := rfl
@[simp] theorem Flow.outcome_refused (s₀ : State) (r : Refusal) : (Flow.refused r).outcome s₀ = .refused r := rfl

/-- Every state an operation can end in is good: the one it completes with, with its value, or the one a fault
leaves. -/
def Flow.Ends {α : Type} (x : Flow α) (done : α → State → Prop) (raised : State → Prop) : Prop :=
  match x with
  | .done a s => done a s
  | .raised s => raised s
  | .held => True
  | .refused _ => True

/-- What a sequence ends in, from what its parts end in. -/
theorem Flow.Ends.bind {α β : Type} {x : Flow α} {f : α → State → Flow β} {P : α → State → Prop}
    {Q : β → State → Prop} {R : State → Prop} (hx : x.Ends P R) (hf : ∀ a s, P a s → (f a s).Ends Q R) :
    (x.bind f).Ends Q R := by
  cases x with
  | done a s => exact hf a s hx
  | raised s => exact hx
  | held => trivial
  | refused r => trivial

theorem Flow.Ends.mono {α : Type} {x : Flow α} {P P' : α → State → Prop} {R R' : State → Prop} (hx : x.Ends P R)
    (hP : ∀ a s, P a s → P' a s) (hR : ∀ s, R s → R' s) : x.Ends P' R' := by
  cases x with
  | done a s => exact hP a s hx
  | raised s => exact hR s hx
  | held => trivial
  | refused r => trivial

/-- The next state of an instruction is one its flow ends in, or, when it holds, the state it began in. -/
theorem Flow.Ends.outcome {x : Flow Unit} {s₀ t : State} {P R : State → Prop} (hx : x.Ends (fun _ => P) R)
    (h : x.outcome s₀ = .next t) : P t ∨ R t ∨ (t = s₀) := by
  cases x with
  | done a s => cases h; exact .inl hx
  | raised s => cases h; exact .inr (.inl hx)
  | held => cases h; exact .inr (.inr rfl)
  | refused r => cases h

/-! ## Addresses -/

theorem validAddress_iff {cfg : Config} {a : Int} :
    validAddress cfg a = true ↔ 0 ≤ a ∧ a ≤ (cfg.addrMax.val : Int) := by
  simp [validAddress]

theorem le_extend (len : Nat) (a : Int) : len ≤ extend len a := Nat.le_max_left _ _

theorem lt_extend (len : Nat) (a : Int) : a.toNat < extend len a := Nat.le_max_right _ _

theorem extend_le {cfg : Config} {len : Nat} {a : Int} (hl : len ≤ cfg.addrMax.val + 1)
    (ha : validAddress cfg a = true) : extend len a ≤ cfg.addrMax.val + 1 := by
  obtain ⟨h0, h1⟩ := validAddress_iff.1 ha
  unfold extend
  omega

theorem addressFault_eq_none {cfg : Config} {a : Int} :
    addressFault cfg a = none ↔ validAddress cfg a = true := by
  cases h : validAddress cfg a <;> simp [addressFault, h]

/-- Where `pc + 1` is a valid address, the 64-bit sum is the integer sum (rule R111). -/
theorem toInt_add_one {w : Word} {cfg : Config} (h0 : 0 ≤ w.toInt) (h1 : w.toInt + 1 ≤ cfg.addrMax.val) :
    (w + 1).toInt = w.toInt + 1 := by
  have hlt := cfg.addrMax.isLt
  rw [BitVec.toInt_add]
  have h2 : (1 : Word).toInt = 1 := by decide
  rw [h2]
  exact Int.bmod_eq_of_le (by omega) (by omega)

/-! ## The primitives -/

theorem memRead_of_valid {a : Int} {s : State} (h : validAddress s.cfg a = true) :
    memRead a s = .done (s.cell a) { s with len := extend s.len a } := by
  simp [memRead, checkAddr, h]

theorem memRead_of_invalid {a : Int} {s : State} (h : validAddress s.cfg a = false) :
    memRead a s = .raised (raise .outOfBounds (some a) s) := by
  simp [memRead, checkAddr, h]

theorem memWrite_of_valid {a : Int} {v : Word} {s : State} (h : validAddress s.cfg a = true) :
    memWrite a v s = .done () { s with len := extend s.len a, mem := s.mem.write a.toNat v } := by
  simp [memWrite, checkAddr, h]

theorem memWrite_of_invalid {a : Int} {v : Word} {s : State} (h : validAddress s.cfg a = false) :
    memWrite a v s = .raised (raise .outOfBounds (some a) s) := by
  simp [memWrite, checkAddr, h]

theorem jumpTo_of_valid {b : Word} {s : State} (h : validAddress s.cfg b.toInt = true) :
    jumpTo b s = .done () { s with pc := b } := by
  simp [jumpTo, checkAddr, h]

theorem jumpTo_of_invalid {b : Word} {s : State} (h : validAddress s.cfg b.toInt = false) :
    jumpTo b s = .raised (raise .outOfBounds (some b.toInt) s) := by
  simp [jumpTo, checkAddr, h]

theorem nextCell_of_room {s : State} (h : s.hasRoom 1) :
    nextCell s = .done (s.cell s.pc.toInt) { s with pc := s.pc + 1, len := extend s.len s.pc.toInt } := by
  obtain ⟨h0, h1⟩ := h
  have hv : validAddress s.cfg s.pc.toInt = true := validAddress_iff.2 ⟨h0, by omega⟩
  have h2 : ¬ (s.pc.toInt + 1 > (s.cfg.addrMax.val : Int)) := by push_cast at h1; omega
  simp only [nextCell, memRead_of_valid hv, Flow.bind_done, if_neg h2]

/-- The top of the address space (rule R23). -/
theorem nextCell_at_top {s : State} (h0 : 0 ≤ s.pc.toInt) (h1 : s.pc.toInt = s.cfg.addrMax.val) :
    nextCell s =
      .raised (raise .outOfBounds (some (s.pc.toInt + 1)) { s with len := extend s.len s.pc.toInt }) := by
  have hv : validAddress s.cfg s.pc.toInt = true := validAddress_iff.2 ⟨h0, by omega⟩
  have h2 : s.pc.toInt + 1 > (s.cfg.addrMax.val : Int) := by omega
  simp only [nextCell, memRead_of_valid hv, Flow.bind_done, if_pos h2]

theorem nextCell_of_invalid {s : State} (h : validAddress s.cfg s.pc.toInt = false) :
    nextCell s = .raised (raise .outOfBounds (some s.pc.toInt) s) := by
  simp only [nextCell, memRead_of_invalid h, Flow.bind_raised]

/-- Everything the immediate read can do: it advances, or faults at the top, or faults on a `pc` that is no
address. -/
theorem nextCell_cases (s : State) :
    (s.hasRoom 1 ∧
      nextCell s = .done (s.cell s.pc.toInt) { s with pc := s.pc + 1, len := extend s.len s.pc.toInt }) ∨
    (validAddress s.cfg s.pc.toInt = true ∧ s.pc.toInt = s.cfg.addrMax.val ∧
      nextCell s =
        .raised (raise .outOfBounds (some (s.pc.toInt + 1)) { s with len := extend s.len s.pc.toInt })) ∨
    (validAddress s.cfg s.pc.toInt = false ∧
      nextCell s = .raised (raise .outOfBounds (some s.pc.toInt) s)) := by
  cases hv : validAddress s.cfg s.pc.toInt with
  | false => exact .inr (.inr ⟨rfl, nextCell_of_invalid hv⟩)
  | true =>
    obtain ⟨h0, h1⟩ := validAddress_iff.1 hv
    by_cases h : s.pc.toInt + 1 ≤ (s.cfg.addrMax.val : Int)
    · have hr : s.hasRoom 1 := ⟨h0, by push_cast; exact h⟩
      exact .inl ⟨hr, nextCell_of_room hr⟩
    · have ht : s.pc.toInt = s.cfg.addrMax.val := by omega
      exact .inr (.inl ⟨rfl, ht, nextCell_at_top h0 ht⟩)

/-- Once a cell has been consumed there is one cell less of room. -/
theorem hasRoom_after_next {s : State} {n len : Nat} (h : s.hasRoom (n + 1)) :
    ({ s with pc := s.pc + 1, len := len } : State).hasRoom n := by
  obtain ⟨h0, h1⟩ := h
  push_cast at h1
  have e := toInt_add_one (cfg := s.cfg) h0 (by omega)
  exact ⟨by simp only [e]; omega, by simp only [e]; omega⟩

theorem hasRoom_mono {s : State} {n k : Nat} (h : s.hasRoom n) (hk : k ≤ n) : s.hasRoom k :=
  ⟨h.1, by have := h.2; omega⟩

/-! ## Operands

`p` is the parameter cell at `pc`. -/

theorem readOperand_of_fault {m : Digit} {s : State} {f : Cause × Int} (hr : s.hasRoom 1)
    (h : sourceFault m (s.cell s.pc.toInt) s = some f) :
    readOperand m s = .raised (s.faultAfter 1 (extend s.len s.pc.toInt) f) := by
  simp only [readOperand, nextCell_of_room hr, Flow.bind_done]
  simp only [sourceFault] at h
  cases he : effectiveAddress m s.rb (s.cell s.pc.toInt) with
  | some a =>
    simp only [he, addressFault] at h ⊢
    cases hv : validAddress s.cfg a with
    | true => simp [hv] at h
    | false =>
      simp only [hv, Bool.false_eq_true, if_false, Option.some.injEq] at h
      subst h
      rw [memRead_of_invalid (by exact hv)]
      rfl
  | none =>
    simp only [he] at h ⊢
    by_cases h1 : m.val = 1
    · simp [h1] at h
    · simp only [h1, if_false, Option.some.injEq] at h ⊢
      subst h
      rfl

theorem readOperand_of_value {m : Digit} {s : State} (hr : s.hasRoom 1)
    (h : sourceFault m (s.cell s.pc.toInt) s = none) :
    readOperand m s =
      .done (sourceValue m (s.cell s.pc.toInt) s)
        { s with
          pc := s.pc + 1
          len := extendFor m s.rb (s.cell s.pc.toInt) (extend s.len s.pc.toInt) } := by
  simp only [readOperand, nextCell_of_room hr, Flow.bind_done]
  simp only [sourceFault] at h
  cases he : effectiveAddress m s.rb (s.cell s.pc.toInt) with
  | some a =>
    simp only [he] at h
    have hv := addressFault_eq_none.1 h
    simp only [sourceValue, extendFor, he]
    rw [memRead_of_valid (by exact hv)]
    rfl
  | none =>
    simp only [he] at h
    by_cases h1 : m.val = 1
    · simp [h1, sourceValue, extendFor, he]
    · simp [h1] at h

theorem writeOperand_of_fault {m : Digit} {v : Word} {s : State} {f : Cause × Int} (hr : s.hasRoom 1)
    (h : destinationFault m (s.cell s.pc.toInt) s = some f) :
    writeOperand m v s = .raised (s.faultAfter 1 (extend s.len s.pc.toInt) f) := by
  simp only [writeOperand, nextCell_of_room hr, Flow.bind_done]
  simp only [destinationFault] at h
  cases he : effectiveAddress m s.rb (s.cell s.pc.toInt) with
  | some a =>
    simp only [he, addressFault] at h ⊢
    cases hv : validAddress s.cfg a with
    | true => simp [hv] at h
    | false =>
      simp only [hv, Bool.false_eq_true, if_false, Option.some.injEq] at h
      subst h
      rw [memWrite_of_invalid (by exact hv)]
      rfl
  | none =>
    simp only [he, Option.some.injEq] at h
    subst h
    rfl

theorem writeOperand_of_valid {m : Digit} {v : Word} {s : State} {d : Int} (hr : s.hasRoom 1)
    (he : effectiveAddress m s.rb (s.cell s.pc.toInt) = some d) (hv : validAddress s.cfg d = true) :
    writeOperand m v s =
      .done ()
        { s with
          pc := s.pc + 1
          len := extend (extend s.len s.pc.toInt) d
          mem := s.mem.write d.toNat v } := by
  simp only [writeOperand, nextCell_of_room hr, Flow.bind_done, he]
  rw [memWrite_of_valid (by exact hv)]

/-! ## Narrowing -/

/-- A word that denotes the exact result is what `wrap64` gives. -/
theorem wrap64_toInt (r : Word) : wrap64 r.toInt = r := BitVec.ofInt_toInt

theorem fits64_toInt (r : Word) : fits64 r.toInt = true := by
  have h1 := BitVec.le_toInt r
  have h2 := BitVec.toInt_lt (x := r)
  simp only [fits64, Bool.and_eq_true, decide_eq_true_eq]
  constructor <;> [exact h1; exact Int.le_sub_one_of_lt h2]

theorem narrow_of_exact {exact : Int} {r : Word} (h : r.toInt = exact) (s : State) : narrow exact s = .done r s := by
  subst h
  simp [narrow, fits64_toInt, wrap64_toInt]

end Sys2Proof.Machine
end

