-- ==== Sys2Proof/Laws/Moves.lean ====
section
/-!
SUPPORT. Everything a host operation, an environment move and a step can do, said once.
-/

namespace Sys2Proof.Machine

/-- Everything a host operation can do (rules R66, R234, R236). -/
theorem hostMove_cases {op : HostOp} {s t : State} (h : hostMove op s = .next t) :
    (∃ a : Word, op = .get a ∧ s.run ≠ .running ∧ validAddress s.cfg a.toInt = true ∧
      t = reply (.value (s.cell a.toInt)) { s with len := extend s.len a.toInt }) ∨
    (∃ a v : Word, op = .set a v ∧ s.run ≠ .running ∧ validAddress s.cfg a.toInt = true ∧
      t = reply .done { s with len := extend s.len a.toInt, mem := s.mem.write a.toInt.toNat v }) ∨
    (∃ a : Word, (op = .get a ∨ ∃ v, op = .set a v) ∧ s.run ≠ .running ∧ validAddress s.cfg a.toInt = false ∧
      t = reply (.outOfBounds a.toInt) s) ∨
    (op = .bindInput ∧ s.run = .ready ∧ s.inBound = false ∧ t = reply .done { s with inBound := true }) ∨
    (op = .bindOutput ∧ s.run = .ready ∧ s.outBound = false ∧ t = reply .done { s with outBound := true }) ∨
    (op = .run ∧ s.run = .ready ∧ t = { s with run := .running }) := by
  cases op with
  | get a =>
    simp only [hostMove, hostGet] at h
    split at h
    · cases h
    · rename_i hr
      cases hv : validAddress s.cfg a.toInt with
      | true => rw [memRead_of_valid hv] at h; cases h; exact .inl ⟨a, rfl, hr, hv, rfl⟩
      | false =>
        rw [memRead_of_invalid hv] at h; cases h
        exact .inr (.inr (.inl ⟨a, .inl rfl, hr, hv, rfl⟩))
  | set a v =>
    simp only [hostMove, hostSet] at h
    split at h
    · cases h
    · rename_i hr
      cases hv : validAddress s.cfg a.toInt with
      | true => rw [memWrite_of_valid hv] at h; cases h; exact .inr (.inl ⟨a, v, rfl, hr, hv, rfl⟩)
      | false =>
        rw [memWrite_of_invalid hv] at h; cases h
        exact .inr (.inr (.inl ⟨a, .inr ⟨v, rfl⟩, hr, hv, rfl⟩))
  | bindInput =>
    simp only [hostMove, hostBindInput] at h
    split at h
    · cases h
    · split at h
      · cases h
      · cases h; exact .inr (.inr (.inr (.inl ⟨rfl, by simp_all, by simp_all, rfl⟩)))
  | bindOutput =>
    simp only [hostMove, hostBindOutput] at h
    split at h
    · cases h
    · split at h
      · cases h
      · cases h; exact .inr (.inr (.inr (.inr (.inl ⟨rfl, by simp_all, by simp_all, rfl⟩))))
  | run =>
    simp only [hostMove, hostRun] at h
    split at h
    · cases h; exact .inr (.inr (.inr (.inr (.inr ⟨rfl, by assumption, rfl⟩))))
    · cases h

/-- Everything an environment move can do (rules R142, R143, R146, R148, R151). -/
theorem environmentMove_cases {e : EnvMove} {s t : State} (h : environmentMove e s = .next t) :
    (∃ v, e = .send v ∧ s.inSenders ≠ 0 ∧ s.cfg.inCap.hasRoom s.inQueue.length = true ∧
      t = { s with inQueue := s.inQueue ++ [v] }) ∨
    (e = .cloneSender ∧ s.inSenders ≠ 0 ∧ t = { s with inSenders := s.inSenders + 1 }) ∨
    (e = .dropSender ∧ s.inSenders ≠ 0 ∧ t = { s with inSenders := s.inSenders - 1 }) ∨
    (∃ v rest, e = .receive ∧ s.outReceiver = true ∧ s.outQueue = v :: rest ∧ t = { s with outQueue := rest }) ∨
    (e = .dropReceiver ∧ s.outReceiver = true ∧ t = { s with outReceiver := false }) ∨
    (∃ v, e = .sendOut v ∧ s.foreignOutSender = true ∧ s.outReceiver = true ∧
      s.cfg.outCap.hasRoom s.outQueue.length = true ∧ t = { s with outQueue := s.outQueue ++ [v] }) ∨
    (e = .cloneOutSender ∧ s.foreignOutSender = true ∧ t = { s with outSenders := s.outSenders + 1 }) ∨
    (e = .dropOutSender ∧ s.outSenders ≠ 0 ∧ t = { s with outSenders := s.outSenders - 1 }) ∨
    (∃ v rest, e = .receiveIn ∧ s.hostHasReceiver = true ∧ s.inQueue = v :: rest ∧ t = { s with inQueue := rest }) ∨
    (∃ l, e = .consoleLine l ∧ t = { s with consoleIn := s.consoleIn ++ [l] }) := by
  cases e with
  | send v =>
    simp only [environmentMove] at h
    split at h
    · rename_i hc
      simp only [ne_eq, decide_not, Bool.and_eq_true, Bool.not_eq_true', decide_eq_false_iff_not] at hc
      cases h; exact .inl ⟨v, rfl, hc.1, hc.2, rfl⟩
    · cases h
  | cloneSender =>
    simp only [environmentMove] at h
    split at h
    · cases h; exact .inr (.inl ⟨rfl, by assumption, rfl⟩)
    · cases h
  | dropSender =>
    simp only [environmentMove] at h
    split at h
    · cases h; exact .inr (.inr (.inl ⟨rfl, by assumption, rfl⟩))
    · cases h
  | receive =>
    simp only [environmentMove] at h
    split at h
    · rename_i v rest hr hq
      cases h; exact .inr (.inr (.inr (.inl ⟨v, rest, rfl, hr, hq, rfl⟩)))
    · cases h
  | dropReceiver =>
    simp only [environmentMove] at h
    split at h
    · cases h; exact .inr (.inr (.inr (.inr (.inl ⟨rfl, by assumption, rfl⟩))))
    · cases h
  | sendOut v =>
    simp only [environmentMove] at h
    split at h
    · rename_i hc
      simp only [Bool.and_eq_true] at hc
      cases h; exact .inr (.inr (.inr (.inr (.inr (.inl ⟨v, rfl, hc.1.1, hc.1.2, hc.2, rfl⟩)))))
    · cases h
  | cloneOutSender =>
    simp only [environmentMove] at h
    split at h
    · cases h; exact .inr (.inr (.inr (.inr (.inr (.inr (.inl ⟨rfl, by assumption, rfl⟩))))))
    · cases h
  | dropOutSender =>
    simp only [environmentMove] at h
    split at h
    · cases h; exact .inr (.inr (.inr (.inr (.inr (.inr (.inr (.inl ⟨rfl, by assumption, rfl⟩)))))))
    · cases h
  | receiveIn =>
    simp only [environmentMove] at h
    split at h
    · rename_i v rest hr hq
      cases h; exact .inr (.inr (.inr (.inr (.inr (.inr (.inr (.inr (.inl ⟨v, rest, rfl, hr, hq, rfl⟩))))))))
    · cases h
  | consoleLine l =>
    cases h; exact .inr (.inr (.inr (.inr (.inr (.inr (.inr (.inr (.inr ⟨l, rfl, rfl⟩))))))))

theorem engineTurn_of_not_running {s : State} (h : s.run ≠ .running) : engineTurn s = .next s := by
  cases hr : s.run <;> simp_all [engineTurn]

/-- A turn of the engine either finds it not Running and changes nothing, or is a cycle. -/
theorem engineTurn_cases {s t : State} (h : engineTurn s = .next t) :
    (s.run ≠ .running ∧ t = s) ∨ (s.run = .running ∧ engineCycle s = .next t) := by
  by_cases hr : s.run = .running
  · exact .inr ⟨hr, by simpa [engineTurn, hr] using h⟩
  · rw [engineTurn_of_not_running hr] at h
    cases h
    exact .inl ⟨hr, rfl⟩

/-- Everything a cycle can do: run the decoded instruction, raise UnrecognizedOpcode, or fault on the fetch. -/
theorem engineCycle_cases {s t : State} (h : engineCycle s = .next t) :
    (∃ i, s.hasRoom 1 ∧ decode (s.cell s.pc.toInt) = .ok i ∧ exec i s = .next t) ∨
    (∃ d, s.hasRoom 1 ∧ decode (s.cell s.pc.toInt) = .error (.unrecognizedOpcode d) ∧
      t = s.faultAfter 1 (extend s.len s.pc.toInt) (.unrecognizedOpcode, d)) ∨
    (validAddress s.cfg s.pc.toInt = true ∧ s.pc.toInt = s.cfg.addrMax.val ∧
      t = raise .outOfBounds (some (s.pc.toInt + 1)) { s with len := extend s.len s.pc.toInt }) ∨
    (validAddress s.cfg s.pc.toInt = false ∧ t = raise .outOfBounds (some s.pc.toInt) s) := by
  unfold engineCycle at h
  rcases nextCell_cases s with ⟨hr, e⟩ | ⟨hv, ht, e⟩ | ⟨hv, e⟩
  · rw [e] at h
    cases hd : decode (s.cell s.pc.toInt) with
    | ok i =>
      simp only [hd] at h
      exact .inl ⟨i, hr, rfl, h⟩
    | error d =>
      obtain ⟨d⟩ := d
      simp only [hd] at h
      cases h
      exact .inr (.inl ⟨d, hr, rfl, rfl⟩)
  · rw [e] at h
    cases h
    exact .inr (.inr (.inl ⟨hv, ht, rfl⟩))
  · rw [e] at h
    cases h
    exact .inr (.inr (.inr ⟨hv, rfl⟩))

/-- A step is a turn of the engine, or the first move on the agenda. -/
theorem step_cases {s t : State} (h : step s = .next t) :
    (s.agenda = [] ∧ engineTurn s = .next t) ∨
    (∃ rest, s.agenda = .engine :: rest ∧ engineTurn { s with agenda := rest } = .next t) ∨
    (∃ op rest, s.agenda = .host op :: rest ∧ hostMove op { s with agenda := rest } = .next t) ∨
    (∃ e rest, s.agenda = .environment e :: rest ∧ environmentMove e { s with agenda := rest } = .next t) := by
  unfold step at h
  split at h
  · exact .inl ⟨by assumption, h⟩
  · rename_i m rest ha
    cases m with
    | engine => exact .inr (.inl ⟨rest, ha, h⟩)
    | host op => exact .inr (.inr (.inl ⟨op, rest, ha, h⟩))
    | environment e => exact .inr (.inr (.inr ⟨e, rest, ha, h⟩))

end Sys2Proof.Machine
end

