-- ==== Sys2Proof/Laws/Exec.lean ====
section
/-!
SUPPORT. What an instruction can do, said once per format: the operand lemmas counted from the start of the
instruction, and one inversion lemma per instruction ("if `exec` answers next `t`, then ...").
-/

namespace Sys2Proof.Machine

/-! ## Counting cells from the start of an instruction -/

/-- The integer sum of a valid `pc` and a number of cells is the 64-bit sum, while it is a valid address. -/
theorem toInt_add_cells {w : Word} {cfg : Config} (n : Nat) (h0 : 0 ≤ w.toInt)
    (h1 : w.toInt + n ≤ cfg.addrMax.val) : (w + BitVec.ofNat 64 n).toInt = w.toInt + n := by
  have hlt := cfg.addrMax.isLt
  have h2 : (BitVec.ofNat 64 n).toInt = n := by
    rw [BitVec.toInt_ofNat']
    exact Int.bmod_eq_of_le (by omega) (by omega)
  rw [BitVec.toInt_add, h2]
  exact Int.bmod_eq_of_le (by omega) (by omega)

theorem add_cells_succ (w : Word) (k : Nat) : w + BitVec.ofNat 64 k + 1 = w + BitVec.ofNat 64 (k + 1) := by
  have h : BitVec.ofNat 64 (k + 1) = BitVec.ofNat 64 k + 1 := by
    apply BitVec.eq_of_toNat_eq
    simp
  rw [h, BitVec.add_assoc]

/-- `s` with `k` cells consumed and the backing sequence grown to `len`. -/
def State.past (s : State) (k len : Nat) : State := { s with pc := s.pc + BitVec.ofNat 64 k, len := len }

theorem past_zero (s : State) : s.past 0 s.len = s := by simp [State.past]

theorem past_hasRoom {s : State} {n k len : Nat} (h : s.hasRoom (k + n)) : (s.past k len).hasRoom n := by
  obtain ⟨h0, h1⟩ := h
  push_cast at h1
  have e := toInt_add_cells (cfg := s.cfg) k h0 (by omega)
  exact ⟨by simp only [State.past, e]; omega, by simp only [State.past, e]; omega⟩

theorem past_toInt {s : State} {n k len : Nat} (h : s.hasRoom (k + n)) :
    (s.past k len).pc.toInt = s.pc.toInt + k := by
  obtain ⟨h0, h1⟩ := h
  push_cast at h1
  exact toInt_add_cells (cfg := s.cfg) k h0 (by omega)

/-- Growing for an address and then for the next one is growing for the next one. -/
theorem extend_extend_succ (len : Nat) {a : Int} (h : 0 ≤ a) :
    extend (extend len a) (a + 1) = extend len (a + 1) := by
  unfold extend
  omega

theorem instruction_of_room {body : State → Flow Unit} {s : State} (h : s.hasRoom 1) :
    instruction body s = (body (s.past 1 (extend s.len s.pc.toInt))).outcome s := by
  simp only [instruction, nextCell_of_room h, Flow.bind_done]
  rfl

theorem readOperand_past_of_fault {m : Digit} {s : State} {k len : Nat} {f : Cause × Int} (h : s.hasRoom (k + 1))
    (hf : sourceFault m (s.param k) s = some f) :
    readOperand m (s.past k len) = .raised (s.faultAfter (k + 1) (extend len (s.pc.toInt + k)) f) := by
  have e := past_toInt (len := len) h
  rw [readOperand_of_fault (f := f) (past_hasRoom h) (by rw [e]; exact hf), e]
  simp only [State.faultAfter, State.past]
  congr 2
  exact add_cells_succ s.pc k

theorem readOperand_past_of_value {m : Digit} {s : State} {k len : Nat} (h : s.hasRoom (k + 1))
    (hf : sourceFault m (s.param k) s = none) :
    readOperand m (s.past k len) =
      .done (sourceValue m (s.param k) s)
        (s.past (k + 1) (extendFor m s.rb (s.param k) (extend len (s.pc.toInt + k)))) := by
  have e := past_toInt (len := len) h
  rw [readOperand_of_value (past_hasRoom h) (by rw [e]; exact hf)]
  simp only [e]
  simp only [State.past, add_cells_succ]
  rfl

theorem writeOperand_past_of_fault {m : Digit} {v : Word} {s : State} {k len : Nat} {f : Cause × Int}
    (h : s.hasRoom (k + 1)) (hf : destinationFault m (s.param k) s = some f) :
    writeOperand m v (s.past k len) = .raised (s.faultAfter (k + 1) (extend len (s.pc.toInt + k)) f) := by
  have e := past_toInt (len := len) h
  rw [writeOperand_of_fault (f := f) (past_hasRoom h) (by rw [e]; exact hf), e]
  simp only [State.faultAfter, State.past]
  congr 2
  exact add_cells_succ s.pc k

theorem writeOperand_past_of_valid {m : Digit} {v : Word} {s : State} {k len : Nat} {d : Int} (h : s.hasRoom (k + 1))
    (he : effectiveAddress m s.rb (s.param k) = some d) (hv : validAddress s.cfg d = true) :
    writeOperand m v (s.past k len) =
      .done ()
        { s with
          pc := s.pc + BitVec.ofNat 64 (k + 1)
          len := extend (extend len (s.pc.toInt + k)) d
          mem := s.mem.write d.toNat v } := by
  have e := past_toInt (len := len) h
  rw [writeOperand_of_valid (d := d) (past_hasRoom h) (by rw [e]; exact he) hv]
  simp only [e]
  simp only [State.past, add_cells_succ]

/-- A source parameter at the greatest address cannot be consumed. -/
theorem readOperand_past_at_top {s : State} {k len : Nat} (m : Digit) (h : s.hasRoom k)
    (ht : s.pc.toInt + k = s.cfg.addrMax.val) :
    readOperand m (s.past k len) =
      .raised (s.faultAfter k (extend len (s.pc.toInt + k)) (.outOfBounds, s.pc.toInt + k + 1)) := by
  have e : (s.past k len).pc.toInt = s.pc.toInt + k := past_toInt (n := 0) h
  have h0 := h.1
  unfold readOperand
  rw [nextCell_at_top (by rw [e]; omega) (by rw [e]; exact ht), e]
  rfl

/-- A destination parameter at the greatest address cannot be consumed. -/
theorem writeOperand_past_at_top {s : State} {k len : Nat} (m : Digit) (v : Word) (h : s.hasRoom k)
    (ht : s.pc.toInt + k = s.cfg.addrMax.val) :
    writeOperand m v (s.past k len) =
      .raised (s.faultAfter k (extend len (s.pc.toInt + k)) (.outOfBounds, s.pc.toInt + k + 1)) := by
  have e : (s.past k len).pc.toInt = s.pc.toInt + k := past_toInt (n := 0) h
  have h0 := h.1
  unfold writeOperand
  rw [nextCell_at_top (by rw [e]; omega) (by rw [e]; exact ht), e]
  rfl

/-! ## What faults leave -/

/-- `t` is `s` faulted by an operand or by the immediate read: at most `c` cells were consumed, only `pc`, `LEN` and the
fault record changed, and the record says why. `ms` are the mode digits looked at. -/
def State.FaultedTo (s : State) (ms : List Digit) (c : Nat) (t : State) : Prop :=
  ∃ j n k i, j ≤ c ∧ s.len ≤ n ∧ n ≤ max s.len (s.cfg.addrMax.val + 1) ∧
    (validAddress s.cfg s.pc.toInt = true → validAddress s.cfg (s.pc + BitVec.ofNat 64 j).toInt = true) ∧
    Cause.admitsPayload s.cfg k i = true ∧
    (k = .outOfBounds ∨ (k = .unrecognizedParameterMode ∧ ∃ m ∈ ms, i = (m.val : Int))) ∧
    t = s.faultAfter j n (k, i)

theorem State.FaultedTo.mono {s t : State} {ms ms' : List Digit} {c c' : Nat} (h : s.FaultedTo ms c t)
    (hm : ∀ m ∈ ms, m ∈ ms') (hc : c ≤ c') : s.FaultedTo ms' c' t := by
  obtain ⟨j, n, k, i, hj, h1, h2, h3, h4, h5, h6⟩ := h
  refine ⟨j, n, k, i, by omega, h1, h2, h3, h4, ?_, h6⟩
  rcases h5 with h5 | ⟨h5, m, hm', hi⟩
  · exact .inl h5
  · exact .inr ⟨h5, m, hm m hm', hi⟩

theorem extend_le_max {cfg : Config} {len : Nat} {a : Int} (h : validAddress cfg a = true) :
    extend len a ≤ max len (cfg.addrMax.val + 1) := by
  have := validAddress_iff.1 h
  unfold extend
  omega

theorem validAddress_pc_of_room {s : State} {k n : Nat} (h : s.hasRoom (k + n)) :
    validAddress s.cfg (s.pc + BitVec.ofNat 64 k).toInt = true := by
  obtain ⟨h0, h1⟩ := h
  push_cast at h1
  rw [toInt_add_cells (cfg := s.cfg) k h0 (by omega)]
  exact validAddress_iff.2 ⟨by omega, by omega⟩

/-- The room after `k` cells, and what is left of it: either the next cell can be consumed, or the immediate read
faults there. -/
theorem nextCell_past (s : State) {k len : Nat} (hk : s.hasRoom k) (hl : s.len ≤ len)
    (hm : len ≤ max s.len (s.cfg.addrMax.val + 1)) :
    s.hasRoom (k + 1) ∨ ∃ t, nextCell (s.past k len) = .raised t ∧ ∀ ms c, k ≤ c → s.FaultedTo ms c t := by
  by_cases h : s.hasRoom (k + 1)
  · exact .inl h
  · refine .inr ?_
    have e : (s.past k len).pc.toInt = s.pc.toInt + k := past_toInt (n := 0) hk
    obtain ⟨h0, h1⟩ := hk
    have ht : s.pc.toInt + k = s.cfg.addrMax.val := by
      by_contra hne
      exact h ⟨h0, by push_cast; omega⟩
    refine ⟨_, nextCell_at_top (by rw [e]; omega) (by rw [e]; exact ht), ?_⟩
    intro ms c hc
    have hv : validAddress s.cfg (s.pc.toInt + k) = true := validAddress_iff.2 ⟨by omega, by omega⟩
    refine ⟨k, extend len (s.pc.toInt + k), .outOfBounds, s.pc.toInt + k + 1, hc,
      hl.trans (le_extend _ _), ?_, fun _ => by rw [toInt_add_cells (cfg := s.cfg) k h0 h1]; exact hv, ?_, .inl rfl, ?_⟩
    · have := extend_le_max (len := len) hv
      omega
    · simp only [Cause.admitsPayload, Bool.not_eq_true', ← Bool.not_eq_true, validAddress_iff]
      omega
    · rw [e]
      rfl

theorem sourceFault_sound {m : Digit} {p : Word} {s : State} {f : Cause × Int} (h : sourceFault m p s = some f) :
    Cause.admitsPayload s.cfg f.1 f.2 = true ∧
      (f.1 = .outOfBounds ∨ (f.1 = .unrecognizedParameterMode ∧ f.2 = (m.val : Int))) := by
  simp only [sourceFault] at h
  split at h
  · simp only [addressFault] at h
    split at h
    · cases h
    · cases h
      exact ⟨by simp_all [Cause.admitsPayload], .inl rfl⟩
  · rename_i he
    split at h
    · cases h
    · rename_i h1
      cases h
      refine ⟨?_, .inr ⟨rfl, rfl⟩⟩
      have h0 : m.val ≠ 0 := fun h0 => by simp [effectiveAddress, h0] at he
      have h2 : m.val ≠ 2 := fun h2 => by simp [effectiveAddress, h2] at he
      have := m.isLt
      simp only [Cause.admitsPayload, Bool.or_eq_true, Bool.and_eq_true, decide_eq_true_eq]
      omega

theorem destinationFault_sound {m : Digit} {p : Word} {s : State} {f : Cause × Int}
    (h : destinationFault m p s = some f) :
    Cause.admitsPayload s.cfg f.1 f.2 = true ∧
      (f.1 = .outOfBounds ∨ (f.1 = .unrecognizedParameterMode ∧ f.2 = (m.val : Int))) := by
  simp only [destinationFault] at h
  split at h
  · simp only [addressFault] at h
    split at h
    · cases h
    · cases h
      exact ⟨by simp_all [Cause.admitsPayload], .inl rfl⟩
  · rename_i he
    cases h
    refine ⟨?_, .inr ⟨rfl, rfl⟩⟩
    have h0 : m.val ≠ 0 := fun h0 => by simp [effectiveAddress, h0] at he
    have h2 : m.val ≠ 2 := fun h2 => by simp [effectiveAddress, h2] at he
    have := m.isLt
    simp only [Cause.admitsPayload, Bool.or_eq_true, Bool.and_eq_true, decide_eq_true_eq]
    omega

theorem faultAfter_faultedTo {s : State} {m : Digit} {k len : Nat} {f : Cause × Int} (h : s.hasRoom (k + 1))
    (hl : s.len ≤ len) (hm : len ≤ max s.len (s.cfg.addrMax.val + 1))
    (hf : Cause.admitsPayload s.cfg f.1 f.2 = true ∧
      (f.1 = .outOfBounds ∨ (f.1 = .unrecognizedParameterMode ∧ f.2 = (m.val : Int)))) :
    s.FaultedTo [m] (k + 1) (s.faultAfter (k + 1) (extend len (s.pc.toInt + k)) f) := by
  have hv : validAddress s.cfg (s.pc.toInt + k) = true := by
    obtain ⟨h0, h1⟩ := h
    push_cast at h1
    exact validAddress_iff.2 ⟨by omega, by omega⟩
  have hx := extend_le_max (len := len) hv
  refine ⟨k + 1, _, f.1, f.2, le_rfl, hl.trans (le_extend _ _), by omega,
    fun _ => validAddress_pc_of_room (n := 0) h, hf.1, ?_, rfl⟩
  rcases hf.2 with h5 | h5
  · exact .inl h5
  · exact .inr ⟨h5.1, m, by simp, h5.2⟩

/-- Everything a source operand can do, `k` cells into an instruction. -/
theorem readOperand_past (m : Digit) (s : State) {k len : Nat} (hk : s.hasRoom k) (hl : s.len ≤ len)
    (hm : len ≤ max s.len (s.cfg.addrMax.val + 1)) :
    (∃ t, readOperand m (s.past k len) = .raised t ∧ s.FaultedTo [m] (k + 1) t) ∨
    (s.hasRoom (k + 1) ∧ ∃ n, s.len ≤ n ∧ n ≤ max s.len (s.cfg.addrMax.val + 1) ∧
      readOperand m (s.past k len) = .done (sourceValue m (s.param k) s) (s.past (k + 1) n)) := by
  rcases nextCell_past s hk hl hm with h | ⟨t, ht, hF⟩
  · cases hf : sourceFault m (s.param k) s with
    | some f =>
      exact .inl ⟨_, readOperand_past_of_fault h hf, faultAfter_faultedTo h hl hm (sourceFault_sound hf)⟩
    | none =>
      have hv : validAddress s.cfg (s.pc.toInt + k) = true := by
        obtain ⟨h0, h1⟩ := h
        push_cast at h1
        exact validAddress_iff.2 ⟨by omega, by omega⟩
      have hx := extend_le_max (len := len) hv
      refine .inr ⟨h, _, ?_, ?_, readOperand_past_of_value h hf⟩
      · simp only [extendFor]
        split
        · exact hl.trans ((le_extend _ _).trans (le_extend _ _))
        · exact hl.trans (le_extend _ _)
      · simp only [extendFor]
        split
        · rename_i a he
          simp only [sourceFault, he] at hf
          have := extend_le_max (len := extend len (s.pc.toInt + k)) (addressFault_eq_none.1 hf)
          omega
        · omega
  · exact .inl ⟨t, by simp only [readOperand, ht, Flow.bind_raised], hF [m] (k + 1) (by omega)⟩

/-- Everything a destination operand can do, `k` cells into an instruction. -/
theorem writeOperand_past (m : Digit) (v : Word) (s : State) {k len : Nat} (hk : s.hasRoom k) (hl : s.len ≤ len)
    (hm : len ≤ max s.len (s.cfg.addrMax.val + 1)) :
    (∃ t, writeOperand m v (s.past k len) = .raised t ∧ s.FaultedTo [m] (k + 1) t) ∨
    (s.hasRoom (k + 1) ∧ ∃ n d, s.len ≤ n ∧ n ≤ max s.len (s.cfg.addrMax.val + 1) ∧ d.toNat < n ∧
      effectiveAddress m s.rb (s.param k) = some d ∧ validAddress s.cfg d = true ∧
      writeOperand m v (s.past k len) =
        .done ()
          { s with pc := s.pc + BitVec.ofNat 64 (k + 1), len := n, mem := s.mem.write d.toNat v }) := by
  rcases nextCell_past s hk hl hm with h | ⟨t, ht, hF⟩
  · cases hf : destinationFault m (s.param k) s with
    | some f =>
      exact .inl ⟨_, writeOperand_past_of_fault h hf, faultAfter_faultedTo h hl hm (destinationFault_sound hf)⟩
    | none =>
      cases he : effectiveAddress m s.rb (s.param k) with
      | none => simp [destinationFault, he] at hf
      | some d =>
        simp only [destinationFault, he] at hf
        have hd := addressFault_eq_none.1 hf
        have hv : validAddress s.cfg (s.pc.toInt + k) = true := by
          obtain ⟨h0, h1⟩ := h
          push_cast at h1
          exact validAddress_iff.2 ⟨by omega, by omega⟩
        have hx := extend_le_max (len := len) hv
        have hx2 := extend_le_max (len := extend len (s.pc.toInt + k)) hd
        exact .inr ⟨h, _, d, hl.trans ((le_extend _ _).trans (le_extend _ _)), by omega, lt_extend _ _, rfl, hd,
          writeOperand_past_of_valid h he hd⟩
  · exact .inl ⟨t, by simp only [writeOperand, ht, Flow.bind_raised], hF [m] (k + 1) (by omega)⟩

/-! ## What an instruction can do -/

/-- An instruction faults on the fetch of its word, or runs its body with the word consumed. -/
theorem instruction_cases (body : State → Flow Unit) (s : State) :
    (∃ t, instruction body s = .next t ∧ s.FaultedTo [] 0 t) ∨
    (s.hasRoom 1 ∧ ∃ n, s.len ≤ n ∧ n ≤ max s.len (s.cfg.addrMax.val + 1) ∧
      instruction body s = (body (s.past 1 n)).outcome s) := by
  rcases nextCell_cases s with ⟨hr, -⟩ | ⟨hv, ht, e⟩ | ⟨hv, e⟩
  · have hv : validAddress s.cfg s.pc.toInt = true := validAddress_iff.2 ⟨hr.1, by have := hr.2; omega⟩
    exact .inr ⟨hr, _, le_extend _ _, extend_le_max hv, instruction_of_room hr⟩
  · refine .inl ⟨_, by simp only [instruction, e, Flow.bind_raised, Flow.outcome_raised]; rfl, ?_⟩
    refine ⟨0, extend s.len s.pc.toInt, .outOfBounds, s.pc.toInt + 1, le_rfl, le_extend _ _, extend_le_max hv, ?_, ?_,
      .inl rfl, ?_⟩
    · simp
    · simp only [Cause.admitsPayload, Bool.not_eq_true', ← Bool.not_eq_true, validAddress_iff]
      omega
    · simp [raise, State.faultAfter]
  · refine .inl ⟨_, by simp only [instruction, e, Flow.bind_raised, Flow.outcome_raised]; rfl, ?_⟩
    refine ⟨0, s.len, .outOfBounds, s.pc.toInt, le_rfl, le_rfl, Nat.le_max_left _ _, ?_, ?_, .inl rfl, ?_⟩
    · simp
    · simp [Cause.admitsPayload, hv]
    · simp [raise, State.faultAfter]

/-- Everything an instruction of format `RRW` can do whose result is computed without changing the state: it faults in
one of its operands, or it stores one word at the address its third parameter names. -/
theorem formatRRW_cases {compute : Word → Word → State → Flow Word} {m1 m2 m3 : Digit} {s t : State}
    (hc : ∀ a b u, (∃ r, compute a b u = .done r u) ∨ ∃ r, compute a b u = .refused r)
    (h : instruction (formatRRW compute m1 m2 m3) s = .next t) :
    s.FaultedTo [m1, m2, m3] 4 t ∨
    (s.hasRoom 4 ∧ ∃ n d v, s.len ≤ n ∧ n ≤ max s.len (s.cfg.addrMax.val + 1) ∧ d.toNat < n ∧
      effectiveAddress m3 s.rb (s.param 3) = some d ∧ validAddress s.cfg d = true ∧
      t = { s with pc := s.pc + BitVec.ofNat 64 4, len := n, mem := s.mem.write d.toNat v }) := by
  rcases instruction_cases (formatRRW compute m1 m2 m3) s with ⟨u, e, hF⟩ | ⟨h1, n, hn1, hn2, e⟩
  · rw [e] at h; cases h
    exact .inl (hF.mono (by simp) (by omega))
  · rw [e] at h
    simp only [formatRRW] at h
    rcases readOperand_past m1 s h1 hn1 hn2 with ⟨u, e, hF⟩ | ⟨h2, n, hn1, hn2, e⟩
    · rw [e] at h; cases h
      exact .inl (hF.mono (by simp) (by omega))
    rw [e, Flow.bind_done] at h
    rcases readOperand_past m2 s h2 hn1 hn2 with ⟨u, e, hF⟩ | ⟨h3, n, hn1, hn2, e⟩
    · rw [e] at h; cases h
      exact .inl (hF.mono (by simp) (by omega))
    rw [e, Flow.bind_done] at h
    rcases hc (sourceValue m1 (s.param 1) s) (sourceValue m2 (s.param 2) s) (s.past (1 + 1 + 1) n) with
      ⟨r, e⟩ | ⟨r, e⟩
    · rw [e, Flow.bind_done] at h
      rcases writeOperand_past m3 r s h3 hn1 hn2 with ⟨u, e, hF⟩ | ⟨h4, n, d, hn1, hn2, hd, he, hv, e⟩
      · rw [e] at h; cases h
        exact .inl (hF.mono (by simp) (by omega))
      · rw [e] at h; cases h
        exact .inr ⟨h4, n, d, r, hn1, hn2, hd, he, hv, rfl⟩
    · rw [e] at h; cases h

/-- Everything a jump can do: it faults in an operand or on its target, falls through, or jumps to the value of its
second operand. -/
theorem formatRR_cases {taken : Word → Bool} {m1 m2 : Digit} {s t : State}
    (h : instruction (formatRR taken m1 m2) s = .next t) :
    s.FaultedTo [m1, m2] 3 t ∨
    (s.hasRoom 3 ∧ ∃ n, s.len ≤ n ∧ n ≤ max s.len (s.cfg.addrMax.val + 1) ∧
      (t = s.past 3 n ∨
        (validAddress s.cfg (sourceValue m2 (s.param 2) s).toInt = true ∧
          t = { s with pc := sourceValue m2 (s.param 2) s, len := n }))) := by
  rcases instruction_cases (formatRR taken m1 m2) s with ⟨u, e, hF⟩ | ⟨h1, n, hn1, hn2, e⟩
  · rw [e] at h; cases h
    exact .inl (hF.mono (by simp) (by omega))
  · rw [e] at h
    simp only [formatRR] at h
    rcases readOperand_past m1 s h1 hn1 hn2 with ⟨u, e, hF⟩ | ⟨h2, n, hn1, hn2, e⟩
    · rw [e] at h; cases h
      exact .inl (hF.mono (by simp) (by omega))
    rw [e, Flow.bind_done] at h
    rcases readOperand_past m2 s h2 hn1 hn2 with ⟨u, e, hF⟩ | ⟨h3, n, hn1, hn2, e⟩
    · rw [e] at h; cases h
      exact .inl (hF.mono (by simp) (by omega))
    rw [e, Flow.bind_done] at h
    split at h
    · cases hv : validAddress s.cfg (sourceValue m2 (s.param 2) s).toInt with
      | true =>
        rw [jumpTo_of_valid (by exact hv)] at h
        cases h
        exact .inr ⟨h3, n, hn1, hn2, .inr ⟨rfl, rfl⟩⟩
      | false =>
        rw [jumpTo_of_invalid (by exact hv)] at h
        cases h
        refine .inl ⟨3, n, .outOfBounds, (sourceValue m2 (s.param 2) s).toInt, le_rfl, hn1, hn2,
          fun _ => validAddress_pc_of_room (n := 0) h3, by simp [Cause.admitsPayload, hv], .inl rfl, rfl⟩
    · cases h
      exact .inr ⟨h3, n, hn1, hn2, .inl rfl⟩

theorem narrow_cases (exact : Int) (u : State) :
    (∃ r, narrow exact u = .done r u) ∨ ∃ r, narrow exact u = .refused r := by
  unfold narrow
  split
  · exact .inl ⟨_, rfl⟩
  · cases u.cfg.ovfMode
    · exact .inl ⟨_, rfl⟩
    · exact .inr ⟨_, rfl⟩

/-- Everything ARB can do. -/
theorem execArb_cases {m1 : Digit} {s t : State} (h : execArb m1 s = .next t) :
    s.FaultedTo [m1] 2 t ∨
    (s.hasRoom 2 ∧ ∃ n r, s.len ≤ n ∧ n ≤ max s.len (s.cfg.addrMax.val + 1) ∧
      t = { s with pc := s.pc + BitVec.ofNat 64 2, len := n, rb := r }) := by
  unfold execArb at h
  rcases instruction_cases _ s with ⟨u, e, hF⟩ | ⟨h1, n, hn1, hn2, e⟩
  · rw [e] at h; cases h
    exact .inl (hF.mono (by simp) (by omega))
  · rw [e] at h
    rcases readOperand_past m1 s h1 hn1 hn2 with ⟨u, e, hF⟩ | ⟨h2, n, hn1, hn2, e⟩
    · rw [e] at h; cases h
      exact .inl hF
    rw [e, Flow.bind_done] at h
    rcases narrow_cases (s.rb.toInt + (sourceValue m1 (s.param 1) s).toInt) (s.past (1 + 1) n) with
      ⟨r, e⟩ | ⟨r, e⟩
    · rw [show sum64 (s.past (1 + 1) n).rb _ _ = _ from e] at h
      cases h
      exact .inr ⟨h2, n, r, hn1, hn2, rfl⟩
    · rw [show sum64 (s.past (1 + 1) n).rb _ _ = _ from e] at h
      cases h

/-- Everything HALT can do. -/
theorem execHalt_cases {s t : State} (h : execHalt s = .next t) :
    s.FaultedTo [] 0 t ∨
    (s.hasRoom 1 ∧ ∃ n, s.len ≤ n ∧ n ≤ max s.len (s.cfg.addrMax.val + 1) ∧
      t = { s with pc := s.pc + BitVec.ofNat 64 1, len := n, run := .halted }) := by
  unfold execHalt at h
  rcases instruction_cases _ s with ⟨u, e, hF⟩ | ⟨h1, n, hn1, hn2, e⟩
  · rw [e] at h; cases h
    exact .inl hF
  · rw [e] at h; cases h
    exact .inr ⟨h1, n, hn1, hn2, rfl⟩

/-- `u` is `s` with the oldest item taken from the provider the input port is served by. -/
def State.TookInput (s u : State) (v : Word) : Prop :=
  (s.inBound = true ∧ ∃ rest, s.inQueue = v :: rest ∧ u = { s with inQueue := rest }) ∨
  (s.inBound = false ∧ ∃ rest, s.consoleIn = .value v :: rest ∧ u = { s with consoleIn := rest })

/-- Everything the input transaction can do, `k` cells into an instruction. -/
theorem inRecv_past (s : State) (k n : Nat) :
    (∃ v u, s.TookInput u v ∧ inRecv (s.past k n) = .done v (u.past k n)) ∨
    inRecv (s.past k n) = .raised (raise .inputError none (s.past k n)) ∨ inRecv (s.past k n) = .held := by
  unfold inRecv
  cases hb : s.inBound with
  | true =>
    rw [if_pos (by exact hb)]
    unfold channelRecv
    cases hq : s.inQueue with
    | cons v rest =>
      refine .inl ⟨v, { s with inQueue := rest }, .inl ⟨hb, rest, hq, rfl⟩, ?_⟩
      simp [State.past, hq]
    | nil =>
      by_cases hs : s.inSenders = 0
      · exact .inr (.inl (by simp [State.past, hq, hs]))
      · exact .inr (.inr (by simp [State.past, hq, hs]))
  | false =>
    rw [if_neg (by simp [State.past, hb])]
    unfold consoleRecv
    cases hq : s.consoleIn with
    | nil => exact .inr (.inr (by simp [State.past, hq]))
    | cons l rest =>
      cases l with
      | value v =>
        refine .inl ⟨v, { s with consoleIn := rest }, .inr ⟨hb, rest, hq, rfl⟩, ?_⟩
        simp [State.past, hq]
      | failure => exact .inr (.inl (by simp [State.past, hq]))

/-- Everything IN can do: hold; fault on the port; or take one item, and then fault on its parameter or store the
item. -/
theorem execInp_cases {m1 : Digit} {s t : State} (h : execInp m1 s = .next t) :
    t = s ∨ s.FaultedTo [] 0 t ∨
    (s.hasRoom 1 ∧ ∃ n, s.len ≤ n ∧ n ≤ max s.len (s.cfg.addrMax.val + 1) ∧
      t = raise .inputError none (s.past 1 n)) ∨
    (∃ u v, s.TookInput u v ∧ (u.FaultedTo [m1] 2 t ∨
      (s.hasRoom 2 ∧ ∃ n d, s.len ≤ n ∧ n ≤ max s.len (s.cfg.addrMax.val + 1) ∧ d.toNat < n ∧
        effectiveAddress m1 s.rb (s.param 1) = some d ∧ validAddress s.cfg d = true ∧
        t = { u with pc := s.pc + BitVec.ofNat 64 2, len := n, mem := s.mem.write d.toNat v }))) := by
  unfold execInp at h
  rcases instruction_cases _ s with ⟨u, e, hF⟩ | ⟨h1, n, hn1, hn2, e⟩
  · rw [e] at h; cases h
    exact .inr (.inl hF)
  · rw [e] at h
    rcases inRecv_past s 1 n with ⟨v, u, hu, e⟩ | e | e
    · rw [e, Flow.bind_done] at h
      have same : u.hasRoom 1 ∧ u.len = s.len ∧ u.cfg = s.cfg ∧ u.rb = s.rb ∧ u.param 1 = s.param 1 ∧
          (u.hasRoom 2 → s.hasRoom 2) ∧ u.pc = s.pc ∧ u.mem = s.mem := by
        rcases hu with ⟨-, rest, -, rfl⟩ | ⟨-, rest, -, rfl⟩ <;> exact ⟨h1, rfl, rfl, rfl, rfl, id, rfl, rfl⟩
      obtain ⟨s1, s2, s3, s4, s5, s6, s7, s8⟩ := same
      refine .inr (.inr (.inr ⟨u, v, hu, ?_⟩))
      rcases writeOperand_past m1 v u (len := n) s1 (by rw [s2]; exact hn1) (by rw [s2, s3]; exact hn2) with
        ⟨w, e, hF⟩ | ⟨h2, n, d, hn1, hn2, hd, he, hv, e⟩
      · rw [e] at h; cases h
        exact .inl hF
      · rw [e] at h; cases h
        rw [s2] at hn1 hn2
        rw [s3] at hn2 hv
        rw [s4, s5] at he
        exact .inr ⟨s6 h2, n, d, hn1, hn2, hd, he, hv, by rw [s7, s8]⟩
    · rw [e] at h; cases h
      exact .inr (.inr (.inl ⟨h1, n, hn1, hn2, rfl⟩))
    · rw [e] at h; cases h
      exact .inl rfl

/-- Everything OUT can do: hold; fault on its operand; fault on the port; or hand over the value. -/
theorem execOut_cases {m1 : Digit} {s t : State} (h : execOut m1 s = .next t) :
    t = s ∨ s.FaultedTo [m1] 2 t ∨
    (s.hasRoom 2 ∧ ∃ n, s.len ≤ n ∧ n ≤ max s.len (s.cfg.addrMax.val + 1) ∧
      ((s.outBound = true ∧ s.outReceiver = false ∧ t = raise .outputError none (s.past 2 n)) ∨
      (s.outBound = true ∧ s.outReceiver = true ∧ s.cfg.outCap.hasRoom s.outQueue.length = true ∧
        t = { s.past 2 n with outQueue := s.outQueue ++ [sourceValue m1 (s.param 1) s] }) ∨
      (s.outBound = false ∧
        t = { s.past 2 n with consoleOut := s.consoleOut ++ [sourceValue m1 (s.param 1) s] }))) := by
  unfold execOut at h
  rcases instruction_cases _ s with ⟨u, e, hF⟩ | ⟨h1, n, hn1, hn2, e⟩
  · rw [e] at h; cases h
    exact .inr (.inl (hF.mono (by simp) (by omega)))
  · rw [e] at h
    rcases readOperand_past m1 s h1 hn1 hn2 with ⟨u, e, hF⟩ | ⟨h2, n, hn1, hn2, e⟩
    · rw [e] at h; cases h
      exact .inr (.inl hF)
    rw [e, Flow.bind_done] at h
    unfold outSend channelSend consoleSend at h
    split at h
    · rename_i hb
      split at h
      · rename_i hr
        split at h
        · rename_i hc
          cases h
          exact .inr (.inr ⟨h2, n, hn1, hn2, .inr (.inl ⟨hb, hr, hc, rfl⟩)⟩)
        · cases h
          exact .inl rfl
      · rename_i hr
        cases h
        exact .inr (.inr ⟨h2, n, hn1, hn2, .inl ⟨hb, eq_false_of_ne_true hr, rfl⟩⟩)
    · rename_i hb
      cases h
      exact .inr (.inr ⟨h2, n, hn1, hn2, .inr (.inr ⟨eq_false_of_ne_true hb, rfl⟩)⟩)

/-! ## Over all instructions -/

/-- What such a fault leaves alone. -/
theorem State.FaultedTo.frame {s t : State} {ms : List Digit} {c : Nat} (h : s.FaultedTo ms c t) :
    t.rb = s.rb ∧ t.mem = s.mem ∧ s.sameControl t ∧ s.sameInput t ∧ s.sameOutput t ∧ t.run = .faulted ∧
      t.cause.isSome = true := by
  obtain ⟨j, n, k, i, -, -, -, -, -, -, rfl⟩ := h
  simp [State.sameControl, State.sameInput, State.sameOutput]

/-- Everything ADD, MUL, LT and EQ can do. -/
theorem exec_rrw_cases {m1 m2 m3 : Digit} {i : Instr} {s t : State}
    (hi : i = .add m1 m2 m3 ∨ i = .mul m1 m2 m3 ∨ i = .lt m1 m2 m3 ∨ i = .eq m1 m2 m3) (h : exec i s = .next t) :
    s.FaultedTo [m1, m2, m3] 4 t ∨
    (s.hasRoom 4 ∧ ∃ n d v, s.len ≤ n ∧ n ≤ max s.len (s.cfg.addrMax.val + 1) ∧ d.toNat < n ∧
      effectiveAddress m3 s.rb (s.param 3) = some d ∧ validAddress s.cfg d = true ∧
      t = { s with pc := s.pc + BitVec.ofNat 64 4, len := n, mem := s.mem.write d.toNat v }) := by
  rcases hi with rfl | rfl | rfl | rfl
  · exact formatRRW_cases (fun a b u => narrow_cases _ _) h
  · exact formatRRW_cases (fun a b u => narrow_cases _ _) h
  · exact formatRRW_cases (fun a b u => .inl ⟨_, rfl⟩) h
  · exact formatRRW_cases (fun a b u => .inl ⟨_, rfl⟩) h

/-- Everything JT and JF can do. -/
theorem exec_rr_cases {m1 m2 : Digit} {i : Instr} {s t : State} (hi : i = .jt m1 m2 ∨ i = .jf m1 m2)
    (h : exec i s = .next t) :
    s.FaultedTo [m1, m2] 3 t ∨
    (s.hasRoom 3 ∧ ∃ n, s.len ≤ n ∧ n ≤ max s.len (s.cfg.addrMax.val + 1) ∧
      (t = s.past 3 n ∨
        (validAddress s.cfg (sourceValue m2 (s.param 2) s).toInt = true ∧
          t = { s with pc := sourceValue m2 (s.param 2) s, len := n }))) := by
  rcases hi with rfl | rfl <;> exact formatRR_cases h

end Sys2Proof.Machine
end

