-- ==== Sys2Proof/Laws/Loader.lean ====
section
/-!
SUPPORT. What each function of the loader answers: digits, integers, fields, terminators.
-/

namespace Sys2Proof.Machine

/-- The character of a decimal digit. -/
def charOfDigit (d : Digit) : Char := Char.ofNat (48 + d.val)

theorem charOfDigit_toNat (d : Digit) : (charOfDigit d).toNat = 48 + d.val := by revert d; decide

theorem digitChar_charOfDigit (d : Digit) : digitChar (charOfDigit d) = some d.val := by revert d; decide

theorem charOfDigit_ne (d : Digit) :
    charOfDigit d ≠ ',' ∧ charOfDigit d ≠ '-' ∧ charOfDigit d ≠ '\n' ∧ charOfDigit d ≠ '\r' := by revert d; decide

/-- The only character that reads as a digit is its own. -/
theorem digitChar_eq_some {c : Char} {n : Nat} (h : digitChar c = some n) : ∃ d : Digit, d.val = n ∧ c = charOfDigit d := by
  unfold digitChar at h
  split at h
  · rename_i hc
    simp only [Bool.and_eq_true, decide_eq_true_eq] at hc
    cases h
    refine ⟨⟨c.toNat - 48, by omega⟩, rfl, ?_⟩
    have e : c.toNat = (charOfDigit ⟨c.toNat - 48, by omega⟩).toNat := by
      rw [charOfDigit_toNat]
      simp only
      omega
    exact Char.ext (UInt32.toNat_inj.1 e)
  · cases h

/-- `parseDigits` reads exactly the lists of digit characters, and folds them. -/
theorem parseDigits_iff {cs : List Char} {v n : Nat} :
    parseDigits v cs = some n ↔
      ∃ ds : List Digit, cs = ds.map charOfDigit ∧ n = ds.foldl (fun n d => 10 * n + d.val) v := by
  induction cs generalizing v with
  | nil =>
    constructor
    · intro h
      cases h
      exact ⟨[], rfl, rfl⟩
    · rintro ⟨ds, h, rfl⟩
      rw [List.map_eq_nil_iff.1 h.symm]
      rfl
  | cons c cs ih =>
    constructor
    · intro h
      simp only [parseDigits] at h
      split at h
      · rename_i d hd
        obtain ⟨e, rfl, rfl⟩ := digitChar_eq_some hd
        obtain ⟨ds, rfl, rfl⟩ := ih.1 h
        exact ⟨e :: ds, rfl, rfl⟩
      · cases h
    · rintro ⟨ds, h, rfl⟩
      cases ds with
      | nil => cases h
      | cons d ds =>
        cases h
        simp only [parseDigits, digitChar_charOfDigit]
        exact ih.2 ⟨ds, rfl, rfl⟩

theorem parseNat_iff {cs : List Char} {n : Nat} :
    parseNat cs = some n ↔ ∃ ds : List Digit, ds ≠ [] ∧ cs = ds.map charOfDigit ∧ n = digitsValue ds := by
  cases cs with
  | nil =>
    constructor
    · intro h
      cases h
    · rintro ⟨ds, hne, h, -⟩
      exact absurd (List.map_eq_nil_iff.1 h.symm) hne
  | cons c cs =>
    simp only [parseNat, parseDigits_iff, digitsValue]
    constructor
    · rintro ⟨ds, h, rfl⟩
      exact ⟨ds, fun e => (by rw [e] at h; cases h), h, rfl⟩
    · rintro ⟨ds, -, h, rfl⟩
      exact ⟨ds, h, rfl⟩

theorem narrow_iff {e : Int} {v : Word} : (if fits64 e then some (wrap64 e) else none) = some v ↔ v.toInt = e := by
  constructor
  · intro h
    split at h
    · rename_i hf
      cases h
      simp only [fits64, Bool.and_eq_true, decide_eq_true_eq] at hf
      simp only [wrap64, BitVec.toInt_ofInt]
      exact Int.bmod_eq_of_le (by omega) (by omega)
    · cases h
  · rintro rfl
    have h1 := BitVec.toInt_lt (x := v)
    have h2 := BitVec.le_toInt (x := v)
    have hf : fits64 v.toInt = true := by
      simp only [fits64, Bool.and_eq_true, decide_eq_true_eq]
      omega
    rw [if_pos hf]
    exact congrArg some BitVec.ofInt_toInt

/-- `parseInteger` reads exactly the texts of rule R231, as the integers they denote. -/
theorem parseInteger_iff {field : List Char} {v : Word} : parseInteger field = some v ↔ IntegerText field v := by
  have key : ∀ (x : Option Int), (match x with
      | some e => if fits64 e then some (wrap64 e) else none
      | none => none) = some v ↔ x = some v.toInt := by
    intro x
    cases x with
    | none => simp
    | some e =>
      simp only [narrow_iff, Option.some.injEq]
      exact eq_comm
  unfold parseInteger
  refine (key _).trans ?_
  constructor
  · intro h
    split at h
    · rename_i cs
      obtain ⟨n, hn, hv⟩ := Option.map_eq_some_iff.1 h
      obtain ⟨ds, hne, rfl, rfl⟩ := parseNat_iff.1 hn
      exact ⟨true, ds, hne, rfl, hv.symm⟩
    · obtain ⟨n, hn, hv⟩ := Option.map_eq_some_iff.1 h
      obtain ⟨ds, hne, rfl, rfl⟩ := parseNat_iff.1 hn
      exact ⟨false, ds, hne, rfl, hv.symm⟩
  · rintro ⟨negative, ds, hne, rfl, hv⟩
    cases negative with
    | true =>
      have hn := parseNat_iff.2 ⟨ds, hne, rfl, rfl⟩
      show ((parseNat (ds.map charOfDigit)).map fun n : Nat => -(n : Int)) = some v.toInt
      rw [hn, hv]
      rfl
    | false =>
      have hn := parseNat_iff.2 ⟨ds, hne, rfl, rfl⟩
      split
      · rename_i cs hcs
        cases ds with
        | nil => exact absurd rfl hne
        | cons d ds =>
          simp only [Bool.false_eq_true, if_false, List.nil_append, List.map_cons, List.cons.injEq] at hcs
          exact absurd hcs.1 (charOfDigit_ne d).2.1
      · show ((parseNat (ds.map charOfDigit)).map fun n : Nat => (n : Int)) = some v.toInt
        rw [hn, hv]
        rfl

/-- The text of an integer has no comma and no terminator in it, and is not empty. -/
theorem IntegerText.chars {field : List Char} {v : Word} (h : IntegerText field v) :
    field ≠ [] ∧ ∀ c ∈ field, c ≠ ',' ∧ c ≠ '\n' ∧ c ≠ '\r' := by
  obtain ⟨negative, ds, hne, rfl, -⟩ := h
  refine ⟨?_, ?_⟩
  · simp only [ne_eq, List.append_eq_nil_iff, List.map_eq_nil_iff]
    exact fun h => hne h.2
  · intro c hc
    rcases List.mem_append.1 hc with hc | hc
    · cases negative with
      | true =>
        rw [if_pos rfl, List.mem_singleton] at hc
        subst hc
        decide
      | false => cases hc
    · obtain ⟨d, -, rfl⟩ := List.mem_map.1 hc
      have hd := charOfDigit_ne d
      exact ⟨hd.1, hd.2.2.1, hd.2.2.2⟩

/-! ## Fields -/

theorem splitCommas_ne_nil (text : List Char) : splitCommas text ≠ [] := by
  cases text with
  | nil => simp [splitCommas]
  | cons c cs =>
    simp only [splitCommas]
    split
    · simp
    · split <;> simp

/-- Joining the fields gives the text back, and no field has a comma in it. -/
theorem splitCommas_spec (text : List Char) :
    [','].intercalate (splitCommas text) = text ∧ ∀ f ∈ splitCommas text, ',' ∉ f := by
  induction text with
  | nil => simp [splitCommas]
  | cons c cs ih =>
    obtain ⟨h1, h2⟩ := ih
    have hne := splitCommas_ne_nil cs
    simp only [splitCommas]
    split
    · rename_i hc
      subst hc
      refine ⟨?_, ?_⟩
      · obtain ⟨f, fs, hf⟩ := List.exists_cons_of_ne_nil hne
        rw [hf] at h1 ⊢
        rw [List.intercalate_cons_cons, h1]
        rfl
      · intro f hf
        rcases List.mem_cons.1 hf with rfl | hf
        · simp
        · exact h2 f hf
    · rename_i hc
      cases hs : splitCommas cs with
      | nil => exact absurd hs hne
      | cons f fs =>
        rw [hs] at h1 h2
        refine ⟨?_, ?_⟩
        · cases fs with
          | nil =>
            simp only [List.intercalate_singleton] at h1 ⊢
            rw [h1]
          | cons g gs =>
            rw [List.intercalate_cons_cons] at h1 ⊢
            rw [← h1]
            rfl
        · intro x hx
          rcases List.mem_cons.1 hx with rfl | hx
          · have := h2 f (by simp)
            simp only [List.mem_cons, not_or]
            exact ⟨fun e => hc e.symm, this⟩
          · exact h2 x (by simp [hx])

/-- A field without commas is split off as it stands. -/
theorem splitCommas_of_no_comma {f : List Char} (hf : ',' ∉ f) : splitCommas f = [f] := by
  induction f with
  | nil => rfl
  | cons c cs ih =>
    simp only [List.mem_cons, not_or] at hf
    simp only [splitCommas, if_neg (Ne.symm hf.1), ih hf.2]

theorem splitCommas_append_comma {f : List Char} (hf : ',' ∉ f) (rest : List Char) :
    splitCommas (f ++ ',' :: rest) = f :: splitCommas rest := by
  induction f with
  | nil => simp [splitCommas]
  | cons c cs ih =>
    simp only [List.mem_cons, not_or] at hf
    simp only [List.cons_append, splitCommas, if_neg (Ne.symm hf.1), ih hf.2]

/-- Splitting joined fields gives them back. -/
theorem splitCommas_intercalate {fields : List (List Char)} (hne : fields ≠ []) (h : ∀ f ∈ fields, ',' ∉ f) :
    splitCommas ([','].intercalate fields) = fields := by
  induction fields with
  | nil => exact absurd rfl hne
  | cons f fs ih =>
    cases fs with
    | nil =>
      rw [List.intercalate_singleton]
      exact splitCommas_of_no_comma (h f (by simp))
    | cons g gs =>
      rw [List.intercalate_cons_cons]
      have e : f ++ [','] ++ [','].intercalate (g :: gs) = f ++ ',' :: [','].intercalate (g :: gs) := by simp
      rw [e, splitCommas_append_comma (h f (by simp)), ih (by simp) fun x hx => h x (by simp [hx])]

/-- `parseFields` reads a list of fields word by word. -/
theorem parseFields_iff {fields : List (List Char)} {image : List Word} :
    parseFields fields = some image ↔ List.Forall₂ IntegerText fields image := by
  induction fields generalizing image with
  | nil =>
    simp only [parseFields, Option.some.injEq, List.forall₂_nil_left_iff]
    exact eq_comm
  | cons f fs ih =>
    constructor
    · intro h
      simp only [parseFields] at h
      split at h
      · rename_i v vs hv hvs
        cases h
        exact .cons (parseInteger_iff.1 hv) (ih.1 hvs)
      · cases h
    · intro h
      cases h with
      | cons hv hvs => simp only [parseFields, parseInteger_iff.2 hv, ih.2 hvs]

/-! ## The terminator -/

theorem stripTerminator_of_no_lf {cfg : Config} {text : List Char} (h : '\n' ∉ text) :
    stripTerminator cfg text = text := by
  unfold stripTerminator
  split
  · rename_i rest hr
    exact absurd (List.mem_reverse.1 (hr ▸ List.mem_cons_self)) h
  · rename_i rest hr
    exact absurd (List.mem_reverse.1 (hr ▸ List.mem_cons_self)) h
  · rfl

theorem stripTerminator_lf {cfg : Config} {text : List Char} (h : '\r' ∉ text) :
    stripTerminator cfg (text ++ ['\n']) = text := by
  unfold stripTerminator
  simp only [List.reverse_append, List.reverse_cons, List.reverse_nil, List.nil_append, List.cons_append]
  split
  · rename_i rest hr
    simp only [List.cons.injEq, true_and] at hr
    exact absurd (List.mem_reverse.1 (hr ▸ List.mem_cons_self)) h
  · rename_i rest hr
    simp only [List.cons.injEq, true_and] at hr
    rw [← hr, List.reverse_reverse]
  · rename_i h1 h2
    exact absurd rfl (h2 _)

theorem stripTerminator_crlf (cfg : Config) (text : List Char) :
    stripTerminator cfg (text ++ ['\r', '\n']) = if cfg.crlfOk then text else text ++ ['\r'] := by
  simp [stripTerminator]

/-- What `stripTerminator` takes away is one of the terminators `cfg` admits. -/
theorem stripTerminator_spec (cfg : Config) (text : List Char) :
    ∃ terminator, text = stripTerminator cfg text ++ terminator ∧
      (terminator = [] ∨ terminator = ['\n'] ∨ (cfg.crlfOk = true ∧ terminator = ['\r', '\n'])) := by
  unfold stripTerminator
  split
  · rename_i rest hr
    have e : text = rest.reverse ++ ['\r', '\n'] := by simpa using congrArg List.reverse hr
    split
    · rename_i hc
      exact ⟨['\r', '\n'], e, .inr (.inr ⟨hc, rfl⟩)⟩
    · exact ⟨['\n'], by rw [e]; simp, .inr (.inl rfl)⟩
  · rename_i rest hr
    exact ⟨['\n'], by simpa using congrArg List.reverse hr, .inr (.inl rfl)⟩
  · exact ⟨[], by simp, .inl rfl⟩

/-- `parseProgram`, from the text without its terminator. -/
theorem parseProgram_of_strip {cfg : Config} {text body : List Char} {image : List Word}
    (h : stripTerminator cfg text = body) :
    parseProgram cfg text = .ok image ↔
      parseFields (splitCommas body) = some image ∧ image.length ≤ cfg.addrMax.val + 1 := by
  unfold parseProgram
  rw [h]
  cases parseFields (splitCommas body) with
  | none => simp
  | some im =>
    simp only [Option.some.injEq]
    split
    · rename_i hl
      constructor
      · intro e
        cases e
        exact ⟨rfl, hl⟩
      · rintro ⟨rfl, -⟩
        rfl
    · rename_i hl
      constructor
      · intro e
        cases e
      · rintro ⟨rfl, h⟩
        exact absurd h hl

end Sys2Proof.Machine
end

