-- ==== Sys2Proof/Laws/PerInstr.lean ====
section
/-!
SUPPORT. Statements made of every instruction, one lemma per constructor.
-/

namespace Sys2Proof.Laws

theorem modesValue_lt (ms : List Digit) : modesValue ms < 10 ^ ms.length := by
  induction ms with
  | nil => decide
  | cons m ms ih =>
    have hm := m.isLt
    simp only [modesValue, List.length_cons, Nat.pow_succ]
    omega

/-- The integer a canonical word denotes. -/
theorem encode_toInt (i : Instr) (h : i.opcode < 100) (hl : i.modes.length ≤ 3) :
    (encode i).toInt = i.opcode + 100 * modesValue i.modes := by
  have h1 := modesValue_lt i.modes
  have h2 : 10 ^ i.modes.length ≤ 10 ^ 3 := Nat.pow_le_pow_right (by decide) hl
  simp only [encode, BitVec.toInt_ofNat']
  rw [Int.bmod_eq_of_le] <;> push_cast <;> omega

/-- The canonical word of an instruction is a number of at most five decimal digits, and its two low digits are the
opcode (rules R81, R93). -/
def CanonicalWord.Statement (i : Instr) : Prop :=
  0 ≤ (encode i).toInt ∧ (encode i).toInt < 100000 ∧ (encode i).toInt % 100 = i.opcode

theorem CanonicalWord.of_short (i : Instr) (h : i.opcode < 100) (hl : i.modes.length ≤ 3) :
    CanonicalWord.Statement i := by
  have h1 := modesValue_lt i.modes
  have h2 : 10 ^ i.modes.length ≤ 10 ^ 3 := Nat.pow_le_pow_right (by decide) hl
  have e := encode_toInt i h hl
  refine ⟨?_, ?_, ?_⟩ <;> rw [e] <;> omega

theorem CanonicalWord.add (m1 m2 m3 : Digit) : CanonicalWord.Statement (.add m1 m2 m3) :=
  CanonicalWord.of_short _ (by simp [Instr.opcode]) (by simp [Instr.modes])

theorem CanonicalWord.mul (m1 m2 m3 : Digit) : CanonicalWord.Statement (.mul m1 m2 m3) :=
  CanonicalWord.of_short _ (by simp [Instr.opcode]) (by simp [Instr.modes])

theorem CanonicalWord.inp (m1 : Digit) : CanonicalWord.Statement (.inp m1) :=
  CanonicalWord.of_short _ (by simp [Instr.opcode]) (by simp [Instr.modes])

theorem CanonicalWord.out (m1 : Digit) : CanonicalWord.Statement (.out m1) :=
  CanonicalWord.of_short _ (by simp [Instr.opcode]) (by simp [Instr.modes])

theorem CanonicalWord.jt (m1 m2 : Digit) : CanonicalWord.Statement (.jt m1 m2) :=
  CanonicalWord.of_short _ (by simp [Instr.opcode]) (by simp [Instr.modes])

theorem CanonicalWord.jf (m1 m2 : Digit) : CanonicalWord.Statement (.jf m1 m2) :=
  CanonicalWord.of_short _ (by simp [Instr.opcode]) (by simp [Instr.modes])

theorem CanonicalWord.lt (m1 m2 m3 : Digit) : CanonicalWord.Statement (.lt m1 m2 m3) :=
  CanonicalWord.of_short _ (by simp [Instr.opcode]) (by simp [Instr.modes])

theorem CanonicalWord.eq (m1 m2 m3 : Digit) : CanonicalWord.Statement (.eq m1 m2 m3) :=
  CanonicalWord.of_short _ (by simp [Instr.opcode]) (by simp [Instr.modes])

theorem CanonicalWord.arb (m1 : Digit) : CanonicalWord.Statement (.arb m1) :=
  CanonicalWord.of_short _ (by simp [Instr.opcode]) (by simp [Instr.modes])

theorem CanonicalWord.halt : CanonicalWord.Statement (.halt) :=
  CanonicalWord.of_short _ (by simp [Instr.opcode]) (by simp [Instr.modes])

end Sys2Proof.Laws
end

