-- ==== Sys2Proof/Tests/Slice0.lean ====
section
/-!
SUPPORT. The model's own tests, and for every statement with hypotheses a witness that meets them.

Every expected result is taken from spec/95_test_vectors.md, whose vector is named, or from the rule named.
-/

namespace Sys2Proof.Tests

open Sys2Proof.Machine

/-! ## Small states -/

/-- Words from integers. -/
def words (image : List Int) : List Word := image.map (BitVec.ofInt 64)

/-- "The start state is the state just after `run` begins ... both ports bound to channels" (95_test_vectors.md). -/
def loaded (image : List Int) : State :=
  { State.load Config.standard (words image) with run := .running, inBound := true, outBound := true }

/-- The same with the small `ADDR_MAX = 15` of the `V-TOP` vectors, and `pc` at an address. -/
def small (image : List Int) (pc : Nat) : State :=
  { loaded image with cfg := { Config.standard with addrMax := ⟨15, by decide⟩ }, pc := BitVec.ofNat 64 pc }

/-- What is seen of a next state. -/
def see {α : Type} (f : State → α) (o : Host.Outcome State Fault Refusal) : Option α :=
  match o with
  | .next s => some (f s)
  | .fault _ => none
  | .refused _ => none

/-- The reason of a refusal. -/
def refusal (o : Host.Outcome State Fault Refusal) : Option Refusal :=
  match o with
  | .next _ => none
  | .fault _ => none
  | .refused r => some r

/-- The fault record and `pc`. -/
def fault (s : State) : RunState × Option Cause × Option Int × Int := (s.run, s.cause, s.info, s.pc.toInt)

/-- `pc` and one cell. -/
def pcAnd (a : Nat) (s : State) : Int × Int := (s.pc.toInt, (s.mem.read a).toInt)

/-! ## Well-formedness: one ill-formed term for each check -/

theorem test_wellFormed_accepts : (Instr.add 0 1 2).wellFormed = true := by decide
theorem test_wellFormed_rrw_first_source : (Instr.add 3 0 0).wellFormed = false := by decide
theorem test_wellFormed_rrw_second_source : (Instr.mul 0 9 0).wellFormed = false := by decide
theorem test_wellFormed_rrw_immediate_destination : (Instr.lt 0 0 1).wellFormed = false := by decide
theorem test_wellFormed_rrw_destination : (Instr.eq 0 0 3).wellFormed = false := by decide
theorem test_wellFormed_add_destination : (Instr.add 0 0 1).wellFormed = false := by decide
theorem test_wellFormed_mul_first_source : (Instr.mul 4 0 0).wellFormed = false := by decide
theorem test_wellFormed_lt_first_source : (Instr.lt 3 0 0).wellFormed = false := by decide
theorem test_wellFormed_eq_second_source : (Instr.eq 0 5 0).wellFormed = false := by decide
theorem test_wellFormed_inp_destination : (Instr.inp 1).wellFormed = false := by decide
theorem test_wellFormed_out_source : (Instr.out 3).wellFormed = false := by decide
theorem test_wellFormed_jt_condition : (Instr.jt 3 0).wellFormed = false := by decide
theorem test_wellFormed_jt_target : (Instr.jt 0 3).wellFormed = false := by decide
theorem test_wellFormed_jf_condition : (Instr.jf 7 1).wellFormed = false := by decide
theorem test_wellFormed_jf_target : (Instr.jf 1 8).wellFormed = false := by decide
theorem test_wellFormed_arb_source : (Instr.arb 9).wellFormed = false := by decide

/-! ## Decoding: words written out from rules R81 and R87, digit by digit -/

/-- Opcode 01, `m1 = 1`, `m2 = 1`, `m3 = 2`: V-DEC-3. -/
theorem test_decode_add : decode 21101 = .ok (.add 1 1 2) := by rfl
/-- V-DEC-1. -/
theorem test_decode_mul : decode 1002 = .ok (.mul 0 1 0) := by rfl
/-- V-DEC-7 and the canonical words of rule R96. -/
theorem test_decode_inp : decode 203 = .ok (.inp 2) := by rfl
/-- V-DEC-5. -/
theorem test_decode_out : decode 204 = .ok (.out 2) := by rfl
/-- V-JT-7: `m2 = 3`. -/
theorem test_decode_jt : decode 3105 = .ok (.jt 1 3) := by rfl
/-- V-DEC-15: the sixth digit is ignored. -/
theorem test_decode_jf : decode 901106 = .ok (.jf 1 1) := by rfl
/-- V-DEC-14: the greatest word. -/
theorem test_decode_lt : decode 9223372036854775807 = .ok (.lt 8 5 7) := by rfl
/-- V-EQ-8. -/
theorem test_decode_eq : decode 1008 = .ok (.eq 0 1 0) := by rfl
/-- V-DEC-6. -/
theorem test_decode_arb : decode 109 = .ok (.arb 1) := by rfl
/-- V-HALT-4, V-HALT-5. -/
theorem test_decode_halt : decode 399 = .ok .halt ∧ decode 1000099 = .ok .halt := ⟨by rfl, by rfl⟩
/-- V-DEC-9 to V-DEC-12. -/
theorem test_decode_refuses_opcodes :
    decode 0 = .error (.unrecognizedOpcode 0) ∧ decode 100 = .error (.unrecognizedOpcode 0) ∧
      decode 12345 = .error (.unrecognizedOpcode 45) ∧ decode 77750 = .error (.unrecognizedOpcode 50) :=
  ⟨by rfl, by rfl, by rfl, by rfl⟩
/-- V-ILL-8 to V-ILL-11. -/
theorem test_decode_refuses_negative_words :
    decode (-101) = .error (.unrecognizedOpcode (-1)) ∧ decode (-100) = .error (.unrecognizedOpcode 0) ∧
      decode (-99) = .error (.unrecognizedOpcode (-99)) ∧
      decode (-9223372036854775808) = .error (.unrecognizedOpcode (-8)) :=
  ⟨by rfl, by rfl, by rfl, by rfl⟩
/-- Rule R93: the canonical word. -/
theorem test_encode : encode (.add 1 1 2) = 21101 ∧ encode (.out 2) = 204 ∧ encode .halt = 99 := by decide
/-- Rule R87, through the host's entry: the first cell is decoded, the others are zeros. -/
theorem test_decodeTableWord : decodeTableWord 64 1002 = some (.mul 0 1 0) ∧ decodeTableWord 64 100 = none := by decide

/-! ## One step of each instruction -/

/-- V-ADD-1. -/
theorem test_add : see (pcAnd 0) (step (loaded [1, 0, 0, 0, 99])) = some (4, 2) := by decide
/-- V-ADD-6: the exact sum is 2^63. -/
theorem test_add_wraps :
    see (pcAnd 5) (step (loaded [1101, 9223372036854775807, 1, 5, 99, 0])) = some (4, -9223372036854775808) := by decide
/-- V-MUL-3. -/
theorem test_mul :
    see (pcAnd 7) (step (loaded [1102, 34915192, 34915192, 7, 4, 7, 99, 0])) = some (4, 1219070632396864) := by decide
/-- V-MUL-8. -/
theorem test_mul_wraps :
    see (pcAnd 5) (step (loaded [1102, 3037000500, 3037000500, 5, 99, 0])) = some (4, -9223372036709301616) := by decide
/-- V-IN-4: one item per IN, oldest first. -/
theorem test_inp :
    see (fun t => (pcAnd 2 t, t.inQueue)) (step { loaded [3, 2, 0] with inQueue := [99, 5] }) =
      some ((2, 99), [5]) := by decide
/-- V-IN-5: the item is gone, then the destination faults. -/
theorem test_inp_immediate_destination :
    see (fun t => (fault t, t.inQueue)) (step { loaded [103, 0, 99] with inQueue := [5, 6] }) =
      some ((.faulted, some .unrecognizedParameterMode, some 1, 2), [6]) := by decide
/-- V-OUT-4: a read past the image extends memory. -/
theorem test_out :
    see (fun t => (t.outQueue, t.len, t.pc)) (step { loaded [204, -9, 99] with rb := 115 }) =
      some ([0], 107, 2) := by decide
/-- V-OUT-9: the operand is resolved before the port is touched. -/
theorem test_out_operand_first :
    see fault (step { loaded [304, 0, 99] with outReceiver := false }) =
      some (.faulted, some .unrecognizedParameterMode, some 3, 2) := by decide
/-- V-JT-9: in relative mode the target is the content of the cell. -/
theorem test_jt : see (fun t => t.pc) (step { loaded [2105, 1, 3, 99, 6] with rb := 1 }) = some 6 := by decide
/-- V-JT-7: not taken, and the second operand faults all the same. -/
theorem test_jt_reads_target_always :
    see fault (step (loaded [3105, 0, 5, 99])) = some (.faulted, some .unrecognizedParameterMode, some 3, 3) := by decide
/-- V-JF-4: a jump touches no memory. -/
theorem test_jf : see (fun t => (t.pc, t.len)) (step (loaded [1106, 0, 1000])) = some (1000, 3) := by decide
/-- V-JF-3. -/
theorem test_jf_bad_target :
    see fault (step (loaded [1106, 0, -1, 99])) = some (.faulted, some .outOfBounds, some (-1), 3) := by decide
/-- V-LT-4: signed. -/
theorem test_lt :
    see (pcAnd 5) (step (loaded [1107, -9223372036854775808, 9223372036854775807, 5, 99, 7])) = some (4, 1) := by decide
/-- V-LT-5. -/
theorem test_lt_false :
    see (pcAnd 5) (step (loaded [1107, 9223372036854775807, -9223372036854775808, 5, 99, 7])) = some (4, 0) := by decide
/-- V-EQ-7. -/
theorem test_eq : see (pcAnd 0) (step (loaded [8, 0, 0, 0, 99])) = some (4, 1) := by decide
/-- V-EQ-4. -/
theorem test_eq_false :
    see (pcAnd 5) (step (loaded [1108, -9223372036854775808, 9223372036854775807, 5, 99, 7])) = some (4, 0) := by decide
/-- V-ARB-4: resolved with the old `rb`. -/
theorem test_arb :
    see (fun t => (t.rb, t.pc)) (step { loaded [209, 5, 99, 0, 0, 0, 0, 15] with rb := 2 }) = some (17, 2) := by decide
/-- V-ARB-6. -/
theorem test_arb_wraps :
    see (fun t => t.rb.toInt) (step { loaded [109, 1, 99] with rb := 9223372036854775807 }) =
      some (-9223372036854775808) := by decide
/-- V-HALT-4. -/
theorem test_halt : see (fun t => (t.run, t.pc)) (step (loaded [399])) = some (.halted, 1) := by decide

/-! ## The cycle, the ports, the host, the loader -/

/-- V-ILL-12: parameter 1 is fetched from past the image, then its mode is rejected. -/
theorem test_illegal_mode :
    see (fun t => (fault t, t.len)) (step (loaded [9223372036854775807])) =
      some ((.faulted, some .unrecognizedParameterMode, some 8, 2), 2) := by decide
/-- V-TOP-4, its second step. -/
theorem test_fetch_at_top :
    see (fun t => (fault t, t.len)) (step (small [1106, 0, 15] 15)) =
      some ((.faulted, some .outOfBounds, some 16, 15), 16) := by decide
/-- V-EA-2: the effective address is exact. -/
theorem test_effective_address_is_exact :
    see fault (step { loaded [204, -9223372036854775808, 99] with rb := -9223372036854775808 }) =
      some (.faulted, some .outOfBounds, some (-18446744073709551616), 2) := by decide
/-- V-IN-8: held. -/
theorem test_in_holds : see (fun t => decide (t = loaded [3, 0, 99])) (step (loaded [3, 0, 99])) = some true := by decide
/-- V-IN-7. -/
theorem test_in_disconnected :
    see fault (step { loaded [3, 0, 99] with inSenders := 0 }) = some (.faulted, some .inputError, none, 1) := by decide
/-- V-OUT-8. -/
theorem test_out_disconnected :
    see (fun t => (fault t, t.outQueue)) (step { loaded [104, 1, 99] with outReceiver := false }) =
      some ((.faulted, some .outputError, none, 2), []) := by decide
/-- Rule R147 and rule R28: an unbound output port prints. -/
theorem test_out_console :
    see (fun t => (t.consoleOut, t.outQueue)) (step { loaded [104, -7, 99] with outBound := false }) =
      some ([-7], []) := by decide
/-- Rule R132 with `OVF_MODE = refuse` (V-ADD-6). -/
theorem test_overflow_refused :
    refusal (step { loaded [1101, 9223372036854775807, 1, 5, 99, 0] with
      cfg := { Config.standard with ovfMode := .refuse } }) =
      some (.resultOutsideI64 9223372036854775808) := by decide
/-- V-HOST-3, on an instance that is Ready. -/
theorem test_host_set :
    see (fun t => (t.mem.read 50, t.mem.read 20, t.len))
      (step { State.load Config.standard (words [1, 0, 0, 0, 99]) with agenda := [.host (.set 50 7)] }) =
      some (7, 0, 51) := by decide
/-- V-HOST-8. -/
theorem test_bind_after_run :
    refusal (step { loaded [99] with agenda := [.host .bindInput] }) = some .bindOutsideReady := by decide
/-- `withFetchWord` at reset: the word is the next one run (V-HALT-1). -/
theorem test_withFetchWord :
    see (fun t => (t.run, t.pc)) (step (State.reset.withFetchWord 64 99)) = some (.halted, 1) := by decide
/-- V-LOAD-2, V-LOAD-4, V-LOAD-5. -/
theorem test_loader_accepts :
    parseProgram Config.standard "1,0,0,0,99\n".toList = .ok (words [1, 0, 0, 0, 99]) ∧
      parseProgram Config.standard "007,-0".toList = .ok (words [7, 0]) ∧
      parseProgram Config.standard "-9223372036854775808,9223372036854775807".toList =
        .ok (words [-9223372036854775808, 9223372036854775807]) := ⟨by rfl, by rfl, by rfl⟩
/-- V-LOAD-6 to V-LOAD-9, V-LOAD-11 to V-LOAD-14, V-LOAD-16. -/
theorem test_loader_rejects :
    ["", "\n", "1,,2", "1,2,", "1, 2", "+1", "-", "1\n\n", "9223372036854775808"].all (fun text =>
      match parseProgram Config.standard text.toList with
      | .ok _ => false
      | .error _ => true) = true := by rfl
/-- V-LOAD-15. -/
theorem test_loader_crlf :
    parseProgram Config.standard "1,2\r\n".toList = .error .parseError ∧
      parseProgram { Config.standard with crlfOk := true } "1,2\r\n".toList = .ok (words [1, 2]) :=
  ⟨by rfl, by rfl⟩

/-! ## Witnesses: for every statement with hypotheses, states and operands that meet them, one per clause

The boundary states use `ADDR_MAX = 15`. -/

/-- An instruction at 11, whose four cells are the last ones that can be consumed. -/
def last4 (cells : List Int) : State := small ([0, 0, 0, 0, 0, 0, 0, 0, 0, 0, 0] ++ cells) 11

/-- An instruction at 12: three cells can be consumed, and cell 15 cannot. -/
def last3 (cells : List Int) : State := small ([0, 0, 0, 0, 0, 0, 0, 0, 0, 0, 0, 0] ++ cells) 12

/-- An instruction at 13. -/
def last2 (cells : List Int) : State := small ([0, 0, 0, 0, 0, 0, 0, 0, 0, 0, 0, 0, 0] ++ cells) 13

/-- An instruction at 14. -/
def last1 (cells : List Int) : State := small ([0, 0, 0, 0, 0, 0, 0, 0, 0, 0, 0, 0, 0, 0] ++ cells) 14

theorem last_rooms :
    (last4 []).hasRoom 4 ∧ (last3 []).hasRoom 3 ∧ (last2 []).hasRoom 2 ∧ (last1 []).hasRoom 1 := by
  unfold State.hasRoom
  decide

theorem witness_NegativeWordsAreNoInstruction :
    (-1 : Word).toInt < 0 ∧ (-9223372036854775808 : Word).toInt < 0 := by decide

theorem witness_DecodeSelectsByUsedDigits :
    decode 2106 = .ok (.jf 1 2) ∧ 0 ≤ (2106 : Word).toInt ∧ (2106 : Word).toInt % 100 = (Instr.jf 1 2).opcode ∧
      (2106 : Word).toInt / 10 ^ 2 % 10 = 1 ∧ (2106 : Word).toInt / 10 ^ 3 % 10 = 2 := ⟨by rfl, by decide⟩

theorem witness_NinetyNineLegalWords : 22208 ∈ legalWords ∧ (Instr.eq 2 2 2).wellFormed = true := by decide

/-- Both ends of the valid range, both neighbours outside it, and an unwritten cell. -/
theorem witness_MemReadFollowsR52 :
    ((0 : Int) ≤ 0 ∧ (0 : Int) ≤ (small [7] 0).cfg.addrMax.val) ∧
      ((0 : Int) ≤ 15 ∧ (15 : Int) ≤ (small [7] 0).cfg.addrMax.val) ∧
      ((-1 : Int) < 0) ∧ ((16 : Int) > (small [7] 0).cfg.addrMax.val) ∧ ∀ c ∈ (small [7] 0).mem, c.1 ≠ 1 := by decide

theorem witness_MemWriteFollowsR53 :
    (small [7] 0).mem.wf = true ∧ ((0 : Int) ≤ 0 ∧ (0 : Int) ≤ (small [7] 0).cfg.addrMax.val) ∧
      ((0 : Int) ≤ 15 ∧ (15 : Int) ≤ (small [7] 0).cfg.addrMax.val) ∧
      ((-1 : Int) < 0) ∧ ((16 : Int) > (small [7] 0).cfg.addrMax.val) := by decide

/-- `pc` at 14 can still advance; at 15 it cannot. -/
theorem witness_ImmediateReadAdvancesOrFaults :
    (0 ≤ (small [] 14).pc.toInt ∧ (small [] 14).pc.toInt + 1 ≤ (small [] 14).cfg.addrMax.val) ∧
      (0 ≤ (small [] 15).pc.toInt ∧ (small [] 15).pc.toInt = (small [] 15).cfg.addrMax.val) := by decide

/-- The parameter cell at 14, holding the address 15 (valid), and 16 and -1 (not); every digit is some `m`. -/
theorem witness_WriteOperandFollowsR113 :
    (0 ≤ (small [] 15).pc.toInt ∧ (small [] 15).pc.toInt = (small [] 15).cfg.addrMax.val) ∧
      (last1 [15]).hasRoom 1 ∧ (last1 [15]).cell (last1 [15]).pc.toInt = 15 ∧
      ((15 : Word).toInt ≥ 0 ∧ (15 : Word).toInt ≤ (last1 [15]).cfg.addrMax.val) ∧
      ((last1 [16]).cell (last1 [16]).pc.toInt).toInt > (last1 [16]).cfg.addrMax.val ∧
      ((last1 [-1]).cell (last1 [-1]).pc.toInt).toInt < 0 := by
  unfold State.hasRoom
  decide

theorem witness_ReadOperandResolvesEveryMode :
    (0 ≤ (small [] 15).pc.toInt ∧ (small [] 15).pc.toInt = (small [] 15).cfg.addrMax.val) ∧
      (last1 [0]).hasRoom 1 ∧ ((last1 [0]).cell (last1 [0]).pc.toInt).toInt = 0 ∧
      ((last1 [16]).cell (last1 [16]).pc.toInt).toInt > (last1 [16]).cfg.addrMax.val ∧
      ((last1 [-1]).cell (last1 [-1]).pc.toInt).toInt < 0 ∧ 3 ≤ (3 : Digit).val := by
  unfold State.hasRoom
  decide

theorem witness_WrapIsCongruentAndExactWhereItFits :
    fits64 (-9223372036854775808) = true ∧ fits64 9223372036854775807 = true := by decide

/-- The fault clauses of `FollowsRRW` (and, without the last two, of `FollowsRR`), each where it is met. -/
theorem witness_operand_faults :
    ((last2 [301, 0]).hasRoom 2 ∧
      sourceFault 3 ((last2 [301, 0]).param 1) (last2 [301, 0]) = some (.unrecognizedParameterMode, 3)) ∧
    ((last2 [101, 0]).hasRoom 2 ∧ sourceFault 1 ((last2 [101, 0]).param 1) (last2 [101, 0]) = none ∧
      (last2 [101, 0]).pc.toInt + 2 = (last2 [101, 0]).cfg.addrMax.val) ∧
    ((last3 [101, 0, 16]).hasRoom 3 ∧ sourceFault 1 ((last3 [101, 0, 16]).param 1) (last3 [101, 0, 16]) = none ∧
      sourceFault 0 ((last3 [101, 0, 16]).param 2) (last3 [101, 0, 16]) = some (.outOfBounds, 16)) ∧
    ((last3 [1, 0, 15]).hasRoom 3 ∧ sourceFault 0 ((last3 [1, 0, 15]).param 1) (last3 [1, 0, 15]) = none ∧
      sourceFault 0 ((last3 [1, 0, 15]).param 2) (last3 [1, 0, 15]) = none ∧
      (last3 [1, 0, 15]).pc.toInt + 3 = (last3 [1, 0, 15]).cfg.addrMax.val) ∧
    ((last4 [10001, 0, 0, 15]).hasRoom 4 ∧
      destinationFault 1 ((last4 [10001, 0, 0, 15]).param 3) (last4 [10001, 0, 0, 15]) =
        some (.unrecognizedParameterMode, 1)) := by
  unfold State.hasRoom
  decide

/-- The completing clause of `FollowsRRW`, with the store at address 15. -/
theorem witness_AddStoresExactSum :
    (last4 [1101, 3, 4, 15]).hasRoom 4 ∧
      sourceFault 1 ((last4 [1101, 3, 4, 15]).param 1) (last4 [1101, 3, 4, 15]) = none ∧
      sourceFault 1 ((last4 [1101, 3, 4, 15]).param 2) (last4 [1101, 3, 4, 15]) = none ∧
      (7 : Word).toInt = (sourceValue 1 ((last4 [1101, 3, 4, 15]).param 1) (last4 [1101, 3, 4, 15])).toInt +
        (sourceValue 1 ((last4 [1101, 3, 4, 15]).param 2) (last4 [1101, 3, 4, 15])).toInt ∧
      effectiveAddress 0 (last4 [1101, 3, 4, 15]).rb ((last4 [1101, 3, 4, 15]).param 3) = some 15 ∧
      validAddress (last4 [1101, 3, 4, 15]).cfg 15 = true := by
  unfold State.hasRoom
  decide

theorem witness_MulStoresExactProduct :
    (last4 [1102, 3, 4, 15]).hasRoom 4 ∧
      sourceFault 1 ((last4 [1102, 3, 4, 15]).param 1) (last4 [1102, 3, 4, 15]) = none ∧
      sourceFault 1 ((last4 [1102, 3, 4, 15]).param 2) (last4 [1102, 3, 4, 15]) = none ∧
      (12 : Word).toInt = (sourceValue 1 ((last4 [1102, 3, 4, 15]).param 1) (last4 [1102, 3, 4, 15])).toInt *
        (sourceValue 1 ((last4 [1102, 3, 4, 15]).param 2) (last4 [1102, 3, 4, 15])).toInt ∧
      effectiveAddress 0 (last4 [1102, 3, 4, 15]).rb ((last4 [1102, 3, 4, 15]).param 3) = some 15 ∧
      validAddress (last4 [1102, 3, 4, 15]).cfg 15 = true := by
  unfold State.hasRoom
  decide

/-- Both results of a comparison, for LT and for EQ. -/
theorem witness_LtStoresSignedComparison_EqStoresEquality :
    (last4 [1107, -1, 0, 15]).hasRoom 4 ∧
      sourceFault 1 ((last4 [1107, -1, 0, 15]).param 1) (last4 [1107, -1, 0, 15]) = none ∧
      sourceFault 1 ((last4 [1107, -1, 0, 15]).param 2) (last4 [1107, -1, 0, 15]) = none ∧
      (sourceValue 1 ((last4 [1107, -1, 0, 15]).param 1) (last4 [1107, -1, 0, 15])).toInt <
        (sourceValue 1 ((last4 [1107, -1, 0, 15]).param 2) (last4 [1107, -1, 0, 15])).toInt ∧
      effectiveAddress 0 (last4 [1107, -1, 0, 15]).rb ((last4 [1107, -1, 0, 15]).param 3) = some 15 ∧
      ¬ (sourceValue 1 ((last4 [1107, 0, 0, 15]).param 1) (last4 [1107, 0, 0, 15])).toInt <
        (sourceValue 1 ((last4 [1107, 0, 0, 15]).param 2) (last4 [1107, 0, 0, 15])).toInt := by
  unfold State.hasRoom
  decide

theorem witness_OverflowWraps :
    (last4 [1101, 9223372036854775807, 1, 15]).cfg.ovfMode = .wrap ∧
      (-9223372036854775808 : Word).toInt =
        ((9223372036854775807 : Word).toInt + (1 : Word).toInt + 2 ^ 63) % 2 ^ 64 - 2 ^ 63 ∧
      (-2 : Word).toInt =
        ((9223372036854775807 : Word).toInt * (2 : Word).toInt + 2 ^ 63) % 2 ^ 64 - 2 ^ 63 := by decide

/-- A state with `OVF_MODE = refuse` and an ADD, MUL or ARB of the greatest word. -/
def refusing (cells : List Int) : State :=
  { loaded cells with cfg := { Config.standard with ovfMode := .refuse }, rb := 1 }

theorem witness_OverflowIsRefused :
    (refusing [1101, 9223372036854775807, 2, 0]).hasRoom 3 ∧
      (refusing [1101, 9223372036854775807, 2, 0]).cfg.ovfMode = .refuse ∧
      sourceFault 1 ((refusing [1101, 9223372036854775807, 2, 0]).param 1)
        (refusing [1101, 9223372036854775807, 2, 0]) = none ∧
      sourceFault 1 ((refusing [1101, 9223372036854775807, 2, 0]).param 2)
        (refusing [1101, 9223372036854775807, 2, 0]) = none ∧
      fits64 ((9223372036854775807 : Word).toInt + (2 : Word).toInt) = false ∧
      fits64 ((9223372036854775807 : Word).toInt * (2 : Word).toInt) = false ∧
      fits64 ((refusing []).rb.toInt + (9223372036854775807 : Word).toInt) = false := by
  unfold State.hasRoom
  decide

/-- A jump in the last three cells that can be consumed: taken to 15, taken to 16, not taken. -/
theorem witness_JtJumpsIfNotZero :
    (last3 [1105, 1, 15]).hasRoom 3 ∧
      sourceFault 1 ((last3 [1105, 1, 15]).param 1) (last3 [1105, 1, 15]) = none ∧
      sourceFault 1 ((last3 [1105, 1, 15]).param 2) (last3 [1105, 1, 15]) = none ∧
      (sourceValue 1 ((last3 [1105, 1, 15]).param 1) (last3 [1105, 1, 15])).toInt ≠ 0 ∧
      validAddress (last3 [1105, 1, 15]).cfg (15 : Word).toInt = true ∧
      validAddress (last3 [1105, 1, 16]).cfg (16 : Word).toInt = false ∧
      ¬ (sourceValue 1 ((last3 [1105, 0, 16]).param 1) (last3 [1105, 0, 16])).toInt ≠ 0 := by
  unfold State.hasRoom
  decide

theorem witness_JfJumpsIfZero :
    (last3 [1106, 0, 15]).hasRoom 3 ∧
      sourceFault 1 ((last3 [1106, 0, 15]).param 1) (last3 [1106, 0, 15]) = none ∧
      sourceFault 1 ((last3 [1106, 0, 15]).param 2) (last3 [1106, 0, 15]) = none ∧
      (sourceValue 1 ((last3 [1106, 0, 15]).param 1) (last3 [1106, 0, 15])).toInt = 0 ∧
      validAddress (last3 [1106, 0, 15]).cfg (15 : Word).toInt = true ∧
      validAddress (last3 [1106, 0, -1]).cfg (-1 : Word).toInt = false ∧
      ¬ (sourceValue 1 ((last3 [1106, 1, 16]).param 1) (last3 [1106, 1, 16])).toInt = 0 := by
  unfold State.hasRoom
  decide

theorem witness_ArbAddsToRelativeBase :
    (last2 [109, 5]).hasRoom 2 ∧ sourceFault 1 ((last2 [109, 5]).param 1) (last2 [109, 5]) = none ∧
      (5 : Word).toInt =
        (last2 [109, 5]).rb.toInt + (sourceValue 1 ((last2 [109, 5]).param 1) (last2 [109, 5])).toInt ∧
      ((last2 [109, 5]).cfg.ovfMode = .wrap ∧
        (-9223372036854775808 : Word).toInt =
          ((9223372036854775807 : Word).toInt + (1 : Word).toInt + 2 ^ 63) % 2 ^ 64 - 2 ^ 63) ∧
      sourceFault 3 ((last2 [309, 5]).param 1) (last2 [309, 5]) = some (.unrecognizedParameterMode, 3) := by
  unfold State.hasRoom
  decide

theorem witness_HaltFollowsR185 :
    (0 ≤ (399 : Word).toInt ∧ (399 : Word).toInt % 100 = 99) ∧ (last1 [99]).hasRoom 1 ∧
      (0 ≤ (small [] 15).pc.toInt ∧ (small [] 15).pc.toInt = (small [] 15).cfg.addrMax.val) ∧
      see (fun t => t.run) (step { loaded [99] with run := .halted }) = some .halted ∧
      see (fun t => t.run) (step (loaded [99])) = some .halted ∧ (loaded [99]).run ≠ .halted := by
  unfold State.hasRoom
  decide

theorem witness_InTakesOldestQueuedItem :
    (last2 [3, 15]).inBound = true ∧ (last2 [3, 15]).hasRoom 2 ∧ (last1 [3]).hasRoom 1 ∧
      ({ last2 [3, 15] with inQueue := [5, 6] } : State).inQueue = 5 :: [6] ∧
      (last1 [3]).pc.toInt + 1 = (last1 [3]).cfg.addrMax.val ∧
      destinationFault 0 ((last2 [3, 16]).param 1) (last2 [3, 16]) = some (.outOfBounds, 16) ∧
      effectiveAddress 0 (last2 [3, 15]).rb ((last2 [3, 15]).param 1) = some 15 ∧
      validAddress (last2 [3, 15]).cfg 15 = true ∧ (last1 [3]).inQueue = [] ∧ (last1 [3]).inSenders ≠ 0 ∧
      ({ last1 [3] with inSenders := 0 } : State).inSenders = 0 := by
  unfold State.hasRoom
  decide

theorem witness_InTakesConsoleLine :
    ({ last2 [3, 15] with inBound := false, consoleIn := [.value 5] } : State).inBound = false ∧
      ({ last2 [3, 15] with inBound := false, consoleIn := [.value 5] } : State).consoleIn = .value 5 :: [] ∧
      (last2 [3, 15]).hasRoom 2 ∧ (last1 [3]).hasRoom 1 ∧
      (last1 [3]).pc.toInt + 1 = (last1 [3]).cfg.addrMax.val ∧
      destinationFault 1 ((last2 [103, 15]).param 1) (last2 [103, 15]) = some (.unrecognizedParameterMode, 1) ∧
      effectiveAddress 0 (last2 [3, 15]).rb ((last2 [3, 15]).param 1) = some 15 ∧
      validAddress (last2 [3, 15]).cfg 15 = true ∧
      (last1 [3]).consoleIn = [] := by
  unfold State.hasRoom
  decide

/-- The unbound port after a failed line, and with no line, where the word is the last cell that can be consumed. -/
theorem witness_InTakesConsoleLine_failed_or_none :
    ({ last1 [3] with inBound := false, consoleIn := [.failure] } : State).inBound = false ∧
      ({ last1 [3] with inBound := false, consoleIn := [.failure] } : State).consoleIn = .failure :: [] ∧
      ({ last1 [3] with inBound := false, consoleIn := [.failure] } : State).hasRoom 1 ∧
      ({ last1 [3] with inBound := false } : State).inBound = false ∧
      ({ last1 [3] with inBound := false } : State).consoleIn = [] ∧
      ({ last1 [3] with inBound := false } : State).hasRoom 1 := by
  unfold State.hasRoom
  decide

/-- An OUT in the last two cells, to a channel of capacity 1 that is empty, full, or without a receiver. -/
theorem witness_OutAppendsToChannel :
    (last2 [104, 5]).outBound = true ∧ (last2 [104, 5]).hasRoom 2 ∧
      sourceFault 3 ((last2 [304, 5]).param 1) (last2 [304, 5]) = some (.unrecognizedParameterMode, 3) ∧
      sourceFault 1 ((last2 [104, 5]).param 1) (last2 [104, 5]) = none ∧
      ({ last2 [104, 5] with outReceiver := false } : State).outReceiver = false ∧
      (last2 [104, 5]).outReceiver = true ∧ (Capacity.items 1).hasRoom 0 = true ∧
      (Capacity.items 1).hasRoom 1 = false := by
  unfold State.hasRoom
  decide

theorem witness_OutPrintsOnConsole :
    ({ last2 [104, 5] with outBound := false } : State).outBound = false ∧ (last2 [104, 5]).hasRoom 2 ∧
      sourceFault 3 ((last2 [304, 5]).param 1) (last2 [304, 5]) = some (.unrecognizedParameterMode, 3) ∧
      sourceFault 1 ((last2 [104, 5]).param 1) (last2 [104, 5]) = none := by
  unfold State.hasRoom
  decide

/-- Each of the four answers a next state, completing and faulting. -/
theorem witness_FrameOfAddMulLtEq :
    see (pcAnd 15) (exec (.add 1 1 0) (last4 [1101, 3, 4, 15])) = some (15, 7) ∧
      see (pcAnd 15) (exec (.mul 1 1 0) (last4 [1102, 3, 4, 15])) = some (15, 12) ∧
      see (pcAnd 15) (exec (.lt 1 1 0) (last4 [1107, 3, 4, 15])) = some (15, 1) ∧
      see (pcAnd 15) (exec (.eq 1 1 0) (last4 [1108, 3, 4, 15])) = some (15, 0) ∧
      see (fun t => t.run) (exec (.add 1 1 1) (last4 [11101, 3, 4, 15])) = some .faulted := by decide

theorem witness_FrameOfIn :
    see (pcAnd 15) (exec (.inp 0) { last2 [3, 15] with inQueue := [5] }) = some (15, 5) ∧
      see (pcAnd 15) (exec (.inp 0) { last2 [3, 15] with inBound := false, consoleIn := [.value 5] }) = some (15, 5) ∧
      see (fun t => t.run) (exec (.inp 0) { last2 [3, 15] with inSenders := 0 }) = some .faulted := by decide

theorem witness_FrameOfOut :
    see (fun t => t.outQueue) (exec (.out 1) (last2 [104, 5])) = some [5] ∧
      see (fun t => t.consoleOut) (exec (.out 1) { last2 [104, 5] with outBound := false }) = some [5] ∧
      see (fun t => t.run) (exec (.out 1) { last2 [104, 5] with outReceiver := false }) = some .faulted := by decide

theorem witness_FrameOfJtJfArbHalt :
    see (fun t => t.pc) (exec (.jt 1 1) (last3 [1105, 1, 0])) = some 0 ∧
      see (fun t => t.pc) (exec (.jf 1 1) (last3 [1106, 1, 0])) = some 15 ∧
      see (fun t => t.rb) (exec (.arb 1) (last2 [109, 5])) = some 5 ∧
      see (fun t => t.run) (exec .halt (last1 [99])) = some .halted := by decide

/-- Also at the greatest address, where the instruction run is the fault of its fetch. -/
theorem witness_StepRunsDecodedInstruction :
    (last1 [99]).run = .running ∧ (last1 [99]).agenda = [] ∧
      validAddress (last1 [99]).cfg (last1 [99]).pc.toInt = true ∧
      decode ((last1 [99]).cell (last1 [99]).pc.toInt) = .ok .halt ∧
      validAddress (small [] 15).cfg (small [] 15).pc.toInt = true :=
  ⟨by rfl, by rfl, by decide, by rfl, by decide⟩

/-- Opcode fields 0, 10 and 98, and a negative word. -/
theorem witness_IllegalOpcodesFaultAtDispatch :
    (last1 [98]).run = .running ∧ (last1 [98]).agenda = [] ∧ (last1 [98]).hasRoom 1 ∧
      (98 : Word) = (last1 [98]).cell (last1 [98]).pc.toInt ∧ (10 ≤ (98 : Word).toInt % 100) ∧
      ((98 : Word).toInt % 100 ≤ 98) ∧ (10 ≤ (10 : Word).toInt % 100) ∧ (100 : Word).toInt % 100 = 0 ∧
      (-1 : Word).toInt < 0 := by
  unfold State.hasRoom
  decide

theorem witness_TopOfAddressSpaceFaults :
    ((small [] 15).run = .running ∧ (small [] 15).agenda = [] ∧ 0 ≤ (small [] 15).pc.toInt ∧
      (small [] 15).pc.toInt = (small [] 15).cfg.addrMax.val) ∧
    ((Instr.out 1).modes ≠ [] ∧ (0 ≤ (last1 [104]).pc.toInt) ∧
      (last1 [104]).pc.toInt + 1 = (last1 [104]).cfg.addrMax.val) := by decide

theorem witness_TopOfAddressSpaceFaults_not_in : ∀ m, Instr.out 1 ≠ .inp m := by decide

/-- Program P4: the store has been made, and `pc` is at the stored word. -/
theorem witness_StoreIsSeenByNextFetch :
    ∃ s t : State, s.mem.wf = true ∧ memWrite 4 104 s = .done () t ∧ t.run = .running ∧ t.agenda = [] ∧
      t.pc.toInt = 4 ∧ decode 104 = .ok (.out 1) :=
  ⟨{ loaded [1101, 100, 4, 4, 99, 77, 99] with pc := 4 }, _, by decide, rfl, rfl, rfl, by decide, rfl⟩

theorem witness_EngineIdlesUnlessRunning : State.reset.agenda = [] ∧ State.reset.run ≠ .running := by decide

/-- A running engine at a HALT, bound to its channels, meets the invariant, and steps. -/
theorem witness_StepKeepsInvariant :
    (loaded [99]).Inv ∧ see (fun t => t.run) (step (loaded [99])) = some .halted :=
  ⟨{ cfg_legal := by decide
     pc_valid := by decide
     mem_wf := by decide
     mem_below_len := fun a h => by
       have h1 : 1 ≤ a := h
       have h0 : (0 : Nat) ≠ a := by omega
       exact if_neg h0
     len_range := by decide
     ready_fresh := by decide
     cause_iff_faulted := by decide
     info_iff_payload := by decide
     payload_sound := fun _ _ h => nomatch h
     queues_fit := by decide }, by decide⟩

theorem witness_LoadMeetsInvariant :
    (small [] 0).cfg.legal = true ∧ (words [1, 0, 0, 0, 99]).length ≤ (small [] 0).cfg.addrMax.val + 1 := by decide

theorem witness_OnlyArbWritesRelativeBase :
    see (fun t => decide (t.rb ≠ (loaded [109, 5]).rb)) (step (loaded [109, 5])) = some true := by decide

theorem witness_FaultsLeaveWritesUndone :
    (loaded [1, 0, 0, -1]).run ≠ .faulted ∧
      see (fun t => t.run) (exec (.add 0 0 0) (loaded [1, 0, 0, -1])) = some .faulted := by decide

/-- Completing, holding and jumping. -/
theorem witness_CompletedInstructionAdvancesByItsLength :
    (loaded [1, 0, 0, 0]).run = .running ∧
      see (fun t => decide (t.run ≠ .faulted)) (exec (.add 0 0 0) (loaded [1, 0, 0, 0])) = some true ∧
      see (fun t => decide (t.run ≠ .faulted)) (exec (.inp 0) (loaded [3, 0])) = some true ∧
      usesPort (.inp 0) = true ∧
      see (fun t => decide (t.run ≠ .faulted)) (exec (.jt 1 1) (loaded [1105, 1, 9])) = some true := by decide

/-- Each kind an instruction can raise. -/
theorem witness_FaultKindsByInstruction :
    (loaded [3, 0]).cause = none ∧
      see (fun t => t.cause) (exec (.inp 0) { loaded [3, 0] with inSenders := 0 }) = some (some .inputError) ∧
      see (fun t => t.cause) (exec (.out 0) { loaded [4, 0] with outReceiver := false }) = some (some .outputError) ∧
      see (fun t => t.cause) (exec (.out 9) (loaded [904, 0])) = some (some .unrecognizedParameterMode) := by decide

theorem witness_StoppedEngineStaysStopped :
    ({ loaded [99] with run := .halted } : State).stopped ∧
      see (fun t => t.run) (step { loaded [99] with run := .halted, agenda := [.host (.set 0 1)] }) = some .halted ∧
      see (fun t => t.run) (step { loaded [99] with run := .faulted, agenda := [.environment (.send 1)] }) =
        some .faulted := by
  unfold State.stopped
  decide

theorem witness_LenNeverDecreases : see (fun t => t.len) (step (loaded [1101, 1, 2, 100])) = some 101 := by decide

theorem witness_OtherInstructionsIgnorePorts :
    [Instr.add 0 0 0, .mul 0 0 0, .jt 0 0, .jf 0 0, .lt 0 0 0, .eq 0 0 0, .arb 0, .halt].all
      (fun i => !usesPort i) = true := by decide

theorem witness_ChannelsAreFirstInFirstOut :
    see (fun t => t.inQueue) (exec (.inp 0) { loaded [3, 0] with inQueue := [5, 6] }) = some [6] ∧
      see (fun t => t.outQueue) (exec (.out 1) { loaded [104, 7] with outQueue := [5, 6] }) = some [5, 6, 7] ∧
      see (fun t => t.inQueue) (step { loaded [] with inQueue := [5], agenda := [.environment (.send 6)] }) =
        some [5, 6] ∧
      see (fun t => t.inQueue)
        (step { loaded [] with run := .halted, inQueue := [5, 6], agenda := [.environment .receiveIn] }) = some [6] ∧
      see (fun t => t.outQueue)
        (step { loaded [] with outSenders := 1, outQueue := [5], agenda := [.environment (.sendOut 6)] }) =
        some [5, 6] ∧
      see (fun t => t.outQueue) (step { loaded [] with outQueue := [5, 6], agenda := [.environment .receive] }) =
        some [6] ∧
      see (fun t => t.outQueue) (step { loaded [] with outQueue := [5], agenda := [.environment .dropReceiver] }) =
        some [5] ∧
      see (fun t => t.inQueue) (step { State.reset with inQueue := [5], agenda := [.host .bindInput] }) = some [5] := by
  decide

/-- Ready and Running; the ends of the valid range and their neighbours. -/
theorem witness_HostGetAndSet :
    State.reset.agenda = [] ∧ State.reset.run ≠ .running ∧ validAddress State.reset.cfg (0 : Word).toInt = true ∧
      validAddress (small [] 0).cfg (15 : Word).toInt = true ∧
      validAddress (small [] 0).cfg (16 : Word).toInt = false ∧
      validAddress State.reset.cfg (-1 : Word).toInt = false ∧ (loaded []).agenda = [] ∧
      (loaded []).run = .running := by decide

theorem witness_HostBindsAndRunsOnce :
    State.reset.agenda = [] ∧ State.reset.run = .ready ∧ State.reset.inBound = false ∧ State.reset.outBound = false ∧
      ({ State.reset with inBound := true, outBound := true } : State).inBound = true ∧
      ({ State.reset with inBound := true, outBound := true } : State).outBound = true ∧
      (loaded []).run ≠ .ready := by decide

theorem witness_OutsideCannotTouchRegisters :
    see (fun t => t.mem.read 3) (step { State.reset with agenda := [.host (.set 3 1)] }) = some 1 ∧
      see (fun t => t.inQueue) (step { State.reset with agenda := [.environment (.send 1)] }) = some [1] := by decide

theorem witness_PeerLiftsHoldOnIn :
    (last2 [3, 15]).run = .running ∧ (last2 [3, 15]).inBound = true ∧ (last2 [3, 15]).inQueue = [] ∧
      (last2 [3, 15]).inSenders = 1 ∧ (last2 [3, 15]).cfg.inCap.hasRoom 0 = true ∧ (last2 [3, 15]).hasRoom 2 ∧
      decode ((last2 [3, 15]).cell (last2 [3, 15]).pc.toInt) = .ok (.inp 0) ∧
      effectiveAddress 0 (last2 [3, 15]).rb ((last2 [3, 15]).param 1) = some 15 ∧
      validAddress (last2 [3, 15]).cfg 15 = true := by
  refine ⟨by rfl, by rfl, by rfl, by rfl, by rfl, ?_, by rfl, by decide, by decide⟩
  unfold State.hasRoom
  decide

/-- The same IN on the unbound port, with no console line. -/
theorem witness_PeerLiftsHoldOnIn_console :
    ({ last2 [3, 15] with inBound := false } : State).inBound = false ∧
      ({ last2 [3, 15] with inBound := false } : State).consoleIn = [] ∧
      ({ last2 [3, 15] with inBound := false } : State).run = .running ∧
      ({ last2 [3, 15] with inBound := false } : State).hasRoom 2 ∧
      decode (({ last2 [3, 15] with inBound := false } : State).cell 13) = .ok (.inp 0) := by
  refine ⟨by rfl, by rfl, by rfl, ?_, by rfl⟩
  unfold State.hasRoom
  decide

/-- An image that fills the address space to its last cell. -/
theorem witness_LoadFollowsR34 :
    words [0, 1, 2, 3, 4, 5, 6, 7, 8, 9, 10, 11, 12, 13, 14, 15] ≠ [] ∧
      (words [0, 1, 2, 3, 4, 5, 6, 7, 8, 9, 10, 11, 12, 13, 14, 15]).length ≤ (small [] 0).cfg.addrMax.val + 1 := by
  decide

/-- One image, and one that fills the address space of `ADDR_MAX = 15` and one that is longer; an accepted text. -/
theorem witness_LoaderAcceptsFittingImages :
    (words [7] ≠ [] ∧ (words [7]).length ≤ (small [] 0).cfg.addrMax.val + 1) ∧
      (List.replicate 16 (1 : Word)).length ≤ (small [] 0).cfg.addrMax.val + 1 ∧
      (small [] 0).cfg.addrMax.val + 1 < (List.replicate 17 (1 : Word)).length ∧
      "1,2".toList.getLast? ≠ some '\n' := by decide

theorem witness_LoaderAcceptsFittingImages_text : parseProgram Config.standard "1,2".toList = .ok (words [1, 2]) := by
  rfl

/-- An OUT in the last two cells that can be consumed, to a full channel of capacity 1. -/
def fullOut : State :=
  { last2 [104, 5] with
    outQueue := [9]
    cfg := { (last2 [104, 5]).cfg with outCap := .items 1 } }

theorem witness_PeerLiftsHoldOnOut :
    fullOut.run = .running ∧ fullOut.outBound = true ∧ fullOut.outReceiver = true ∧ fullOut.outQueue = 9 :: [] ∧
      fullOut.cfg.outCap = .items (([] : List Word).length + 1) ∧ fullOut.hasRoom 2 ∧
      decode (fullOut.cell fullOut.pc.toInt) = .ok (.out 1) ∧
      sourceFault 1 (fullOut.param 1) fullOut = none := by
  refine ⟨by rfl, by rfl, by rfl, by rfl, by rfl, ?_, by rfl, by decide⟩
  unfold State.hasRoom
  decide

theorem witness_ForeignItemsFillTheOutputChannel :
    fullOut.run = .running ∧ fullOut.outBound = true ∧ fullOut.outReceiver = true ∧
      ({ fullOut with outSenders := 1 } : State).outSenders ≠ 0 ∧ fullOut.outQueue = 9 :: [] ∧
      ({ fullOut with cfg := { fullOut.cfg with outCap := .items 2 } } : State).cfg.outCap =
        .items (([] : List Word).length + 2) ∧ fullOut.hasRoom 2 ∧
      decode (fullOut.cell fullOut.pc.toInt) = .ok (.out 1) ∧
      sourceFault 1 (fullOut.param 1) fullOut = none := by
  refine ⟨by rfl, by rfl, by rfl, by decide, by rfl, by rfl, ?_, by rfl, by decide⟩
  unfold State.hasRoom
  decide

/-- Each premise of a move that can be made, and of one that cannot. -/
theorem witness_PeersActOnTheChannels :
    State.reset.inSenders ≠ 0 ∧ State.reset.cfg.inCap.hasRoom State.reset.inQueue.length = true ∧
      (Capacity.items 1).hasRoom 0 = true ∧ (Capacity.items 1).hasRoom 1 = false ∧
      ({ State.reset with inSenders := 0 } : State).inSenders = 0 ∧ State.reset.outBound = false ∧
      State.reset.outReceiver = true ∧ ({ State.reset with outReceiver := false } : State).outReceiver = false ∧
      fullOut.outSenders = 0 ∧ fullOut.outBound = true ∧ ({ fullOut with outSenders := 1 } : State).outSenders ≠ 0 ∧
      fullOut.outQueue = 9 :: [] ∧ State.reset.inBound = false ∧ (loaded []).inBound = true ∧
      (loaded []).run = .running ∧ ({ loaded [] with run := .halted } : State).run = .halted ∧
      State.reset.outSenders = 0 ∧ State.reset.outQueue = [] ∧ State.reset.inQueue = [] ∧
      ({ loaded [] with run := .halted, inQueue := [5] } : State).inQueue = 5 :: [] := by decide

/-! ## The far ends of the output channel, and the text of an image -/

/-- Rule R208: a seed is in the output link before the run, and the engine's item goes behind it. -/
theorem test_seed_in_output_link :
    see (fun t => t.outQueue) (step { loaded [] with outBound := false, agenda := [.environment (.sendOut 4)] }) =
      some [4] ∧
      see (fun t => t.outQueue) (step { loaded [104, 7] with outQueue := [4] }) = some [4, 7] := by decide
/-- Rule R148: the engine's own end is moved, never duplicated, so with no clone nobody else can send. -/
theorem test_no_clone_no_send :
    refusal (step { loaded [] with agenda := [.environment (.sendOut 4)] }) = some .environmentMoveImpossible := by
  decide
/-- Rule R231: the text of an image. -/
theorem test_imageText : imageText (words [1, 0, -5, 99]) = "1,0,-5,99".toList := by rfl

end Sys2Proof.Tests
end

-- ==== Proofs of the family 20_memory.md ====
section
/-!
The memory primitives against rules R52 and R53. A failed check and a passed one are told apart by
`memRead_of_valid`, `memWrite_of_valid` and their counterparts; what is added here is the branch that `extend` takes,
the failing half of rule R51, and the value of an unlisted cell.
-/

namespace Sys2Proof.Machine

/-- The branch rule R30 writes: `LEN` moves only for an access at or past it. -/
theorem extend_eq_ite {a : Int} (h : 0 ≤ a) (len : Nat) :
    extend len a = if a ≥ len then a.toNat + 1 else len := by
  unfold extend
  split <;> omega

theorem validAddress_eq_false_iff {cfg : Config} {a : Int} :
    validAddress cfg a = false ↔ a < 0 ∨ a > cfg.addrMax.val := by
  rw [← Bool.not_eq_true, validAddress_iff]
  omega

/-- Rule R29: a cell that was never written holds 0. -/
theorem Memory.read_of_unlisted {m : Memory} {a : Nat} (h : ∀ c ∈ m, c.1 ≠ a) : m.read a = 0 := by
  induction m with
  | nil => rfl
  | cons c rest ih =>
    obtain ⟨hne, hrest⟩ := List.forall_mem_cons.1 h
    simpa [Memory.read, hne] using ih hrest

/-- Settles O7: the passed check by the read-over-write laws of `Memory.write`, the failed one by `raise`, which
writes only the fault record. -/
theorem memWriteFollowsR53 : Obligations.MemWriteFollowsR53 := by
  refine ⟨fun a v s hwf h0 h1 => ?valid, fun a v s h => ?invalid⟩
  case valid =>
    refine ⟨_, memWrite_of_valid (validAddress_iff.2 ⟨h0, h1⟩), Memory.read_write_self hwf a.toNat v,
      fun b hb => Memory.read_write_ne s.mem v hb, Memory.wf_write hwf a.toNat v, ?_⟩
    rw [extend_eq_ite h0]
  case invalid =>
    exact ⟨memWrite_of_invalid (validAddress_eq_false_iff.2 h), raise_mem .., raise_len ..⟩

/-- Settles O6, by the two outcomes of the address check and the value of an unlisted cell. -/
theorem memReadFollowsR52 : Obligations.MemReadFollowsR52 := by
  refine ⟨fun a s h0 h1 => ?valid, fun a s h => ?invalid, fun m a h => Memory.read_of_unlisted h⟩
  case valid =>
    rw [memRead_of_valid (validAddress_iff.2 ⟨h0, h1⟩), extend_eq_ite h0, State.cell]
  case invalid =>
    exact memRead_of_invalid (validAddress_eq_false_iff.2 h)

end Sys2Proof.Machine
end

-- ==== Proofs of the family 60_exceptions.md ====
section
/-!
Fault entry against rule R200. That a raised flow skips what follows is `Flow.bind_raised` and `Flow.outcome_raised`,
and the fault record is read back by `raise_cause` and `raise_info`; what is added here is the value `run` returns from
a Faulted state, whichever step led there.
-/

namespace Sys2Proof.Machine

/-- Rule R200: the error value of a Faulted state is its fault record. -/
theorem State.runResult_of_faulted {s : State} (h : s.run = .faulted) :
    s.runResult = some (.error s.cause s.info) := by
  simp only [State.runResult, h]

/-- Settles O11: the next state is `raise`'s own definition, the rest of the instruction is dropped by the laws of a
raised flow, and the error value is read from the fault record `raise` wrote. -/
theorem raiseFollowsR200 : Obligations.RaiseFollowsR200 := by
  refine fun k info s => ⟨?nextState, fun α start rest => ?endsInstruction, ?errorValue⟩
  case nextState => rfl
  case endsInstruction => rw [Flow.bind_raised, Flow.outcome_raised]
  case errorValue => rw [State.runResult_of_faulted (raise_run k info s), raise_cause, raise_info]

end Sys2Proof.Machine
end

-- ==== Proofs of the family other ====
section
/-!
# Encoding

The decoder, said once as an equivalence (`decodeNat_eq_ok_iff`, `decodeSelectsByUsedDigits`): the round trip and the 99 legal
words are read off it, the digits of a canonical word being those of `modesValue`.
-/

namespace Sys2Proof

theorem Instr.opcode_lt (i : Instr) : i.opcode < 100 := by
  cases i <;> simp [Instr.opcode]

theorem Instr.modes_length_le (i : Instr) : i.modes.length ≤ 3 := by
  cases i <;> simp [Instr.modes]

/-- The mode digits that `i` uses, in the word `n`: those of weight 100 and up (rule R82). -/
def Instr.digitsOf (i : Instr) (n : Nat) : List Digit := (List.range i.modes.length).map fun k => digit n (k + 2)

/-- Rules R82, R87 on a word that is not negative. -/
theorem decodeNat_eq_ok_iff {n : Nat} {i : Instr} :
    decodeNat n = .ok i ↔ n % 100 = i.opcode ∧ i.modes = i.digitsOf n := by
  unfold decodeNat
  constructor
  · intro h
    split at h <;> cases h <;> exact ⟨by assumption, rfl⟩
  · rintro ⟨hop, hm⟩
    cases i with
    | add | mul | lt | eq =>
      change [_, _, _] = [digit n 2, digit n 3, digit n 4] at hm
      cases hm
      simp only [hop, Instr.opcode]
    | jt | jf =>
      change [_, _] = [digit n 2, digit n 3] at hm
      cases hm
      simp only [hop, Instr.opcode]
    | inp | out | arb =>
      change [_] = [digit n 2] at hm
      cases hm
      simp only [hop, Instr.opcode]
    | halt => simp only [hop, Instr.opcode]

/-- The digits an instruction uses, one by one. -/
theorem modes_eq_digitsOf_iff {n : Nat} {i : Instr} :
    i.modes = i.digitsOf n ↔ ∀ k (h : k < i.modes.length), (i.modes[k]'h).val = n / 10 ^ (k + 2) % 10 := by
  rw [List.ext_getElem_iff]
  simp +contextual [Instr.digitsOf, digit, Fin.ext_iff]

theorem decode_of_negative {w : Word} (h : w.toInt < 0) :
    decode w = .error (.unrecognizedOpcode (trem w.toInt 100)) := by
  rw [decode, if_pos h]

theorem decode_of_toNat {w : Word} {n : Nat} (h : w.toInt = n) : decode w = decodeNat n := by
  have h0 : ¬ w.toInt < 0 := by omega
  rw [decode, if_neg h0, h, Int.toNat_natCast]

/-- Settles O2: a word that is not negative is a natural number, whose digits `decodeNat` looks at. -/
theorem decodeSelectsByUsedDigits : Obligations.DecodeSelectsByUsedDigits := by
  intro w i
  by_cases h : w.toInt < 0
  · rw [decode_of_negative h]
    have h0 : ¬ 0 ≤ w.toInt := by omega
    simp [h0]
  · obtain ⟨n, hn⟩ := Int.eq_ofNat_of_zero_le (not_lt.1 h)
    rw [decode_of_toNat hn, decodeNat_eq_ok_iff, modes_eq_digitsOf_iff, hn]
    norm_cast
    simp

/-- The digits of `modesValue` are the mode digits (rule R93). -/
theorem modesValue_digit {ms : List Digit} {k : Nat} (h : k < ms.length) :
    modesValue ms / 10 ^ k % 10 = (ms[k]'h).val := by
  induction ms generalizing k with
  | nil => cases h
  | cons m ms ih =>
    have hm := m.isLt
    cases k with
    | zero => simp only [modesValue, pow_zero, Nat.div_one, List.getElem_cons_zero]; omega
    | succ k =>
      have hdiv : modesValue (m :: ms) / 10 = modesValue ms := by simp only [modesValue]; omega
      rw [pow_succ', ← Nat.div_div_eq_div_mul, hdiv]
      exact ih (Nat.lt_of_succ_lt_succ h)

/-- Settles O1: the canonical word satisfies the decoder's equivalence, digit by digit. -/
theorem decodeEncodeRoundTrip : Obligations.DecodeEncodeRoundTrip := by
  intro i
  have hword : (encode i).toInt = (i.opcode + 100 * modesValue i.modes : Nat) := by
    exact_mod_cast Laws.encode_toInt i i.opcode_lt i.modes_length_le
  have hop := i.opcode_lt
  have hdiv : (i.opcode + 100 * modesValue i.modes) / 10 ^ 2 = modesValue i.modes := by omega
  rw [decode_of_toNat hword, decodeNat_eq_ok_iff, modes_eq_digitsOf_iff]
  refine ⟨by omega, fun k hk => ?_⟩
  rw [add_comm k, pow_add, ← Nat.div_div_eq_div_mul, hdiv, modesValue_digit hk]

theorem encode_injective {i j : Instr} (h : encode i = encode j) : i = j := by
  have e := decodeEncodeRoundTrip i
  rw [h, decodeEncodeRoundTrip j] at e
  cases e
  rfl

/-! ## The 99 legal words -/

theorem sourceMode_iff {m : Digit} : sourceMode m = true ↔ m = 0 ∨ m = 1 ∨ m = 2 := by
  revert m; decide

theorem destinationMode_iff {m : Digit} : destinationMode m = true ↔ m = 0 ∨ m = 2 := by
  revert m; decide

theorem encode_toNat (i : Instr) : (encode i).toNat = i.opcode + 100 * modesValue i.modes := by
  have hop := i.opcode_lt
  have hms := Laws.modesValue_lt i.modes
  have hpow : 10 ^ i.modes.length ≤ 10 ^ 3 := Nat.pow_le_pow_right (by decide) i.modes_length_le
  rw [encode, BitVec.toNat_ofNat, Nat.mod_eq_of_lt (by omega)]

/-- Rule R96: the words of an `RRW` instruction with legal mode digits. -/
theorem mem_wordsOfRRW {m1 m2 m3 : Digit} (op : Nat)
    (h : (sourceMode m1 && sourceMode m2 && destinationMode m3) = true) :
    op + 100 * modesValue [m1, m2, m3] ∈ wordsOfRRW op := by
  rw [add_comm op]
  refine List.mem_map_of_mem ?_
  simp only [Bool.and_eq_true, sourceMode_iff, destinationMode_iff] at h
  obtain ⟨⟨h1, h2⟩, h3⟩ := h
  rcases h1 with rfl | rfl | rfl <;> rcases h2 with rfl | rfl | rfl <;> rcases h3 with rfl | rfl <;> decide

theorem encode_mem_legalWords {i : Instr} (h : i.wellFormed = true) : (encode i).toNat ∈ legalWords := by
  rw [encode_toNat]
  cases i with
  | add m1 m2 m3 => simp [legalWords, Instr.opcode, Instr.modes, mem_wordsOfRRW 1 h]
  | mul m1 m2 m3 => simp [legalWords, Instr.opcode, Instr.modes, mem_wordsOfRRW 2 h]
  | lt m1 m2 m3 => simp [legalWords, Instr.opcode, Instr.modes, mem_wordsOfRRW 7 h]
  | eq m1 m2 m3 => simp [legalWords, Instr.opcode, Instr.modes, mem_wordsOfRRW 8 h]
  | inp m1 =>
    rcases destinationMode_iff.1 h with rfl | rfl <;> decide
  | out m1 | arb m1 =>
    rcases sourceMode_iff.1 h with rfl | rfl | rfl <;> decide
  | jt m1 m2 | jf m1 m2 =>
    simp only [Instr.wellFormed, Bool.and_eq_true, sourceMode_iff] at h
    obtain ⟨h1, h2⟩ := h
    rcases h1 with rfl | rfl | rfl <;> rcases h2 with rfl | rfl | rfl <;> decide
  | halt => decide

/-- `n` decodes to a well-formed instruction whose canonical word it is. -/
def isLegalWord (n : Nat) : Bool :=
  match decodeNat n with
  | .ok i => i.wellFormed && (encode i).toNat == n
  | .error _ => false

theorem legalWords_legal : legalWords.all isLegalWord = true := by decide

theorem exists_wellFormed_of_mem {n : Nat} (h : n ∈ legalWords) :
    ∃ i : Instr, i.wellFormed = true ∧ (encode i).toNat = n := by
  have hn := List.all_eq_true.1 legalWords_legal n h
  unfold isLegalWord at hn
  split at hn
  · rename_i i _
    exact ⟨i, by simpa using hn⟩
  · cases hn

/-- Settles O4: every listed word is that of a well-formed instruction, and `encode` is injective. -/
theorem ninetyNineLegalWords : Obligations.NinetyNineLegalWords := by
  refine ⟨rfl, by decide, fun i => ⟨encode_mem_legalWords, fun h => ?_⟩, fun n => exists_wellFormed_of_mem⟩
  obtain ⟨j, hj, e⟩ := exists_wellFormed_of_mem h
  rwa [← encode_injective (BitVec.eq_of_toNat_eq e)]

/-- Settles O3: the remainder rounded toward zero is what the truncated quotient leaves. -/
theorem negativeWordsAreNoInstruction : Obligations.NegativeWordsAreNoInstruction := by
  intro w h
  rw [decode_of_negative h, trem, Int.tmod_def]

/-- Settles O5: each word is its own digits. -/
theorem writtenOutWordsDecode : Obligations.WrittenOutWordsDecode := by
  refine ⟨?_, ?_, ?_, ?_, ?_, ?_, ?_, ?_, ?_, ?_, ?_⟩ <;> rfl

end Sys2Proof

/-!
# Effects of an instruction, and the invariant

`exec_effect` is the inversion lemma over all ten instructions, from the per-format ones of Laws/Exec; the rules that
hold of every instruction are read off it, case by case. `Inv` is kept by each elementary update of the state, and an
effect is a composition of such updates.
-/

namespace Sys2Proof.Machine

/-! ## The decoder's errors -/

theorem decodeNat_eq_error_iff {n : Nat} {d : Int} :
    decodeNat n = .error (.unrecognizedOpcode d) ↔
      (n % 100 = 0 ∨ (10 ≤ n % 100 ∧ n % 100 ≤ 98)) ∧ d = ((n % 100 : Nat) : Int) := by
  unfold decodeNat
  split
  case h_11 =>
    have hlt := Nat.mod_lt n (show 100 > 0 by decide)
    have hop : n % 100 = 0 ∨ (10 ≤ n % 100 ∧ n % 100 ≤ 98) := by
      simp only [imp_false] at *
      omega
    simp only [Except.error.injEq, DecodeError.unrecognizedOpcode.injEq, hop, true_and]
    exact eq_comm
  all_goals
    constructor
    · intro h
      cases h
    · intro h
      omega

/-- Rules R83, R88, R193: which words are no instruction, and with which payload. -/
theorem decode_eq_error_iff {w : Word} {d : Int} :
    decode w = .error (.unrecognizedOpcode d) ↔
      (w.toInt < 0 ∧ d = trem w.toInt 100) ∨
      (0 ≤ w.toInt ∧ (w.toInt % 100 = 0 ∨ (10 ≤ w.toInt % 100 ∧ w.toInt % 100 ≤ 98)) ∧ d = w.toInt % 100) := by
  by_cases h : w.toInt < 0
  · rw [decode_of_negative h]
    have h0 : ¬ 0 ≤ w.toInt := by omega
    simp only [h, h0, true_and, false_and, or_false, Except.error.injEq, DecodeError.unrecognizedOpcode.injEq]
    exact eq_comm
  · obtain ⟨n, hn⟩ := Int.eq_ofNat_of_zero_le (not_lt.1 h)
    rw [decode_of_toNat hn, decodeNat_eq_error_iff, hn]
    omega

/-- The payload of UnrecognizedOpcode is an opcode field that is no opcode (rule R193). -/
theorem decode_error_admitsPayload {cfg : Config} {w : Word} {d : Int}
    (h : decode w = .error (.unrecognizedOpcode d)) : Cause.admitsPayload cfg .unrecognizedOpcode d = true := by
  simp only [Cause.admitsPayload, Bool.and_eq_true, Bool.not_eq_true', Bool.and_eq_false_iff, decide_eq_true_eq,
    decide_eq_false_iff_not]
  rcases decode_eq_error_iff.1 h with ⟨h0, rfl⟩ | ⟨h0, h1, rfl⟩
  · have hlo := Int.lt_tmod_of_pos w.toInt (show (0 : Int) < 100 by decide)
    have hhi := Int.tmod_nonneg 100 (show 0 ≤ -w.toInt by omega)
    rw [Int.neg_tmod] at hhi
    unfold trem
    omega
  · omega

/-! ## What an instruction can have done -/

/-- `LEN` has grown to `n` by accesses at valid addresses (rule R30). -/
def State.GrowsTo (s : State) (n : Nat) : Prop := s.len ≤ n ∧ n ≤ max s.len (s.cfg.addrMax.val + 1)

/-- What an instruction that answers the next state has done in `s`, one constructor per way it can end. -/
inductive Effect (s : State) : Instr → State → Prop
  | held {i : Instr} (hp : usesPort i = true) : Effect s i s
  | faulted {i : Instr} {t : State} (hF : s.FaultedTo i.modes i.cells t) : Effect s i t
  | stored {i : Instr} {m1 m2 m3 : Digit} {n : Nat} {d : Int} (v : Word)
      (hi : i = .add m1 m2 m3 ∨ i = .mul m1 m2 m3 ∨ i = .lt m1 m2 m3 ∨ i = .eq m1 m2 m3)
      (room : s.hasRoom 4) (hn : s.GrowsTo n) (hd : d.toNat < n) :
      Effect s i { s with pc := s.pc + BitVec.ofNat 64 4, len := n, mem := s.mem.write d.toNat v }
  | fellThrough {i : Instr} {m1 m2 : Digit} {n : Nat} (hi : i = .jt m1 m2 ∨ i = .jf m1 m2)
      (room : s.hasRoom 3) (hn : s.GrowsTo n) : Effect s i (s.past 3 n)
  | jumped {i : Instr} {m1 m2 : Digit} {n : Nat} (hi : i = .jt m1 m2 ∨ i = .jf m1 m2)
      (hv : validAddress s.cfg (sourceValue m2 (s.param 2) s).toInt = true) (hn : s.GrowsTo n) :
      Effect s i { s with pc := sourceValue m2 (s.param 2) s, len := n }
  | rebased {m1 : Digit} {n : Nat} (r : Word) (room : s.hasRoom 2) (hn : s.GrowsTo n) :
      Effect s (.arb m1) { s with pc := s.pc + BitVec.ofNat 64 2, len := n, rb := r }
  | halted {n : Nat} (room : s.hasRoom 1) (hn : s.GrowsTo n) :
      Effect s .halt { s with pc := s.pc + BitVec.ofNat 64 1, len := n, run := .halted }
  | inputFailed {m1 : Digit} {n : Nat} (room : s.hasRoom 1) (hn : s.GrowsTo n) :
      Effect s (.inp m1) (raise .inputError none (s.past 1 n))
  | tookThenFaulted {m1 : Digit} {u t : State} {v : Word} (hu : s.TookInput u v) (hF : u.FaultedTo [m1] 2 t) :
      Effect s (.inp m1) t
  | tookAndStored {m1 : Digit} {u : State} {v : Word} {n : Nat} {d : Int} (hu : s.TookInput u v)
      (room : s.hasRoom 2) (hn : s.GrowsTo n) (hd : d.toNat < n) :
      Effect s (.inp m1) { u with pc := s.pc + BitVec.ofNat 64 2, len := n, mem := s.mem.write d.toNat v }
  | outputFailed {m1 : Digit} {n : Nat} (hb : s.outBound = true) (room : s.hasRoom 2) (hn : s.GrowsTo n) :
      Effect s (.out m1) (raise .outputError none (s.past 2 n))
  | sent {m1 : Digit} {n : Nat} (v : Word) (hc : s.cfg.outCap.hasRoom s.outQueue.length = true)
      (room : s.hasRoom 2) (hn : s.GrowsTo n) :
      Effect s (.out m1) { s.past 2 n with outQueue := s.outQueue ++ [v] }
  | printed {m1 : Digit} {n : Nat} (v : Word) (room : s.hasRoom 2) (hn : s.GrowsTo n) :
      Effect s (.out m1) { s.past 2 n with consoleOut := s.consoleOut ++ [v] }

theorem exec_rrw_effect {m1 m2 m3 : Digit} {i : Instr} {s t : State}
    (hi : i = .add m1 m2 m3 ∨ i = .mul m1 m2 m3 ∨ i = .lt m1 m2 m3 ∨ i = .eq m1 m2 m3) (h : exec i s = .next t) :
    Effect s i t := by
  have hF : i.modes = [m1, m2, m3] := by rcases hi with rfl | rfl | rfl | rfl <;> rfl
  rcases exec_rrw_cases hi h with hf | ⟨room, n, d, v, hn1, hn2, hd, -, -, rfl⟩
  · exact .faulted (by rw [Instr.cells, hF]; exact hf)
  · exact .stored v hi room ⟨hn1, hn2⟩ hd

theorem exec_rr_effect {m1 m2 : Digit} {i : Instr} {s t : State} (hi : i = .jt m1 m2 ∨ i = .jf m1 m2)
    (h : exec i s = .next t) : Effect s i t := by
  have hF : i.modes = [m1, m2] := by rcases hi with rfl | rfl <;> rfl
  rcases exec_rr_cases hi h with hf | ⟨room, n, hn1, hn2, rfl | ⟨hv, rfl⟩⟩
  · exact .faulted (by rw [Instr.cells, hF]; exact hf)
  · exact .fellThrough hi room ⟨hn1, hn2⟩
  · exact .jumped hi hv ⟨hn1, hn2⟩

/-- Everything an instruction can do. -/
theorem exec_effect {i : Instr} {s t : State} (h : exec i s = .next t) : Effect s i t := by
  cases i with
  | add m1 m2 m3 => exact exec_rrw_effect (.inl rfl) h
  | mul m1 m2 m3 => exact exec_rrw_effect (.inr (.inl rfl)) h
  | lt m1 m2 m3 => exact exec_rrw_effect (.inr (.inr (.inl rfl))) h
  | eq m1 m2 m3 => exact exec_rrw_effect (.inr (.inr (.inr rfl))) h
  | jt m1 m2 => exact exec_rr_effect (.inl rfl) h
  | jf m1 m2 => exact exec_rr_effect (.inr rfl) h
  | arb m1 =>
    rcases execArb_cases h with hf | ⟨room, n, r, hn1, hn2, rfl⟩
    · exact .faulted hf
    · exact .rebased r room ⟨hn1, hn2⟩
  | halt =>
    rcases execHalt_cases h with hf | ⟨room, n, hn1, hn2, rfl⟩
    · exact .faulted (hf.mono (by simp) (Nat.zero_le _))
    · exact .halted room ⟨hn1, hn2⟩
  | inp m1 =>
    rcases execInp_cases h with
      rfl | hf | ⟨room, n, hn1, hn2, rfl⟩ | ⟨u, v, hu, hf | ⟨room, n, d, hn1, hn2, hd, -, -, rfl⟩⟩
    · exact .held rfl
    · exact .faulted (hf.mono (by simp) (Nat.zero_le _))
    · exact .inputFailed room ⟨hn1, hn2⟩
    · exact .tookThenFaulted hu hf
    · exact .tookAndStored hu room ⟨hn1, hn2⟩ hd
  | out m1 =>
    rcases execOut_cases h with
      rfl | hf | ⟨room, n, hn1, hn2, ⟨hb, -, rfl⟩ | ⟨-, -, hc, rfl⟩ | ⟨-, rfl⟩⟩
    · exact .held rfl
    · exact .faulted hf
    · exact .outputFailed hb room ⟨hn1, hn2⟩
    · exact .sent _ hc room ⟨hn1, hn2⟩
    · exact .printed _ room ⟨hn1, hn2⟩

/-! ## What a step can have done -/

/-- The engine has its turn with the agenda `a` left: the agenda is empty, or its first move is the engine's. -/
def State.engineNext (s : State) (a : List Move) : Prop := (s.agenda = [] ∧ a = []) ∨ s.agenda = .engine :: a

/-- `step_cases` with the two ways to a turn of the engine taken together. -/
theorem step_agent_cases {s t : State} (h : step s = .next t) :
    (∃ a, s.engineNext a ∧ engineTurn { s with agenda := a } = .next t) ∨
    (∃ op rest, s.agenda = .host op :: rest ∧ hostMove op { s with agenda := rest } = .next t) ∨
    (∃ e rest, s.agenda = .environment e :: rest ∧ environmentMove e { s with agenda := rest } = .next t) := by
  rcases step_cases h with ⟨ha, h⟩ | ⟨rest, ha, h⟩ | h | h
  · exact .inl ⟨[], .inl ⟨ha, rfl⟩, by rw [← ha]; exact h⟩
  · exact .inl ⟨rest, .inr ha, h⟩
  · exact .inr (.inl h)
  · exact .inr (.inr h)

/-! ## The invariant, update by update -/

section
variable {s : State} (h : s.Inv)
include h

theorem State.Inv.moved {pc rb : Word} (hr : s.run ≠ .ready) (hpc : validAddress s.cfg pc.toInt = true) :
    ({ s with pc := pc, rb := rb } : State).Inv :=
  { h with pc_valid := hpc, ready_fresh := fun e => absurd e hr }

theorem State.Inv.grown {n : Nat} (hn : s.GrowsTo n) : ({ s with len := n } : State).Inv :=
  { h with
    mem_below_len := fun a ha => h.mem_below_len a (hn.1.trans ha)
    len_range := hn.2.trans (max_le h.len_range le_rfl) }

theorem State.Inv.written {a : Nat} (v : Word) (ha : a < s.len) : ({ s with mem := s.mem.write a v } : State).Inv :=
  { h with
    mem_wf := Memory.wf_write h.mem_wf a v
    mem_below_len := Memory.below_write v h.mem_below_len ha }

theorem State.Inv.raised {k : Cause} {i : Option Int} (hp : i.isSome = k.hasPayload)
    (hi : ∀ d, i = some d → k.admitsPayload s.cfg d = true) : (raise k i s).Inv :=
  { h with
    ready_fresh := nofun
    cause_iff_faulted := by simp
    info_iff_payload := by simpa using hp
    payload_sound := fun k' d hk hd => by cases hk; exact hi d hd }

/-- Only Ready and Faulted have clauses of their own. -/
theorem State.Inv.ran {r : RunState} (hs : s.run ≠ .faulted) (hr : r ≠ .ready) (hf : r ≠ .faulted) :
    ({ s with run := r } : State).Inv :=
  { h with
    ready_fresh := fun e => absurd e hr
    cause_iff_faulted := h.cause_iff_faulted.trans ⟨fun e => absurd e hs, fun e => absurd e hf⟩ }

theorem State.Inv.withAgenda (a : List Move) : ({ s with agenda := a } : State).Inv := { h with }

theorem State.Inv.past {k n : Nat} (hr : s.run ≠ .ready) (room : s.hasRoom k) (hn : s.GrowsTo n) :
    (s.past k n).Inv :=
  (h.grown hn).moved hr (validAddress_pc_of_room (n := 0) room)

/-- The clauses of `Inv` say nothing of the environment but that the queues fit. -/
theorem State.Inv.requeued {inq outq : List Word} (hin : s.cfg.inCap.admits inq.length = true)
    (hout : s.cfg.outCap.admits outq.length = true) : ({ s with inQueue := inq, outQueue := outq } : State).Inv :=
  { h with queues_fit := ⟨hin, hout⟩ }

theorem State.Inv.faultedTo {t : State} {ms : List Digit} {c : Nat} (hr : s.run ≠ .ready) (hF : s.FaultedTo ms c t) :
    t.Inv := by
  obtain ⟨j, n, k, i, -, hn1, hn2, hpc, hpay, hk, rfl⟩ := hF
  have hp : k.hasPayload = true := by
    rcases hk with rfl | ⟨rfl, -⟩ <;> rfl
  exact ((h.grown ⟨hn1, hn2⟩).moved hr (hpc h.pc_valid)).raised hp.symm fun d hd => by cases hd; exact hpay

end

theorem Capacity.admits_of_hasRoom {c : Capacity} {n : Nat} (h : c.hasRoom n = true) : c.admits (n + 1) = true := by
  cases c with
  | unbounded => rfl
  | items k => simpa [Capacity.hasRoom, Capacity.admits] using h

theorem Capacity.admits_of_succ {c : Capacity} {n : Nat} (h : c.admits (n + 1) = true) : c.admits n = true := by
  cases c with
  | unbounded => rfl
  | items k => simp only [Capacity.admits, decide_eq_true_eq] at h ⊢; omega

theorem State.TookInput.inv {s u : State} {v : Word} (hu : s.TookInput u v) (h : s.Inv) : u.Inv := by
  rcases hu with ⟨-, rest, hq, rfl⟩ | ⟨-, rest, -, rfl⟩
  · have hin := h.queues_fit.1
    rw [hq] at hin
    exact h.requeued (Capacity.admits_of_succ hin) h.queues_fit.2
  · exact { h with }

/-- Taking an item changes nothing of the engine. -/
theorem State.TookInput.engine {s u : State} {v : Word} (hu : s.TookInput u v) :
    u.pc = s.pc ∧ u.rb = s.rb ∧ u.mem = s.mem ∧ u.len = s.len ∧ u.cfg = s.cfg ∧ u.run = s.run ∧
      u.cause = s.cause ∧ u.info = s.info := by
  rcases hu with ⟨-, rest, -, rfl⟩ | ⟨-, rest, -, rfl⟩ <;> simp

/-- Taking an item changes nothing of the flags, the bookkeeping, and the output side. -/
theorem State.TookInput.frame {s u : State} {v : Word} (hu : s.TookInput u v) :
    s.sameControl u ∧ s.sameOutput u ∧ u.inSenders = s.inSenders := by
  rcases hu with ⟨-, rest, -, rfl⟩ | ⟨-, rest, -, rfl⟩ <;> simp [State.sameControl, State.sameOutput]

/-- An instruction of a running engine keeps the invariant. -/
theorem Effect.inv {i : Instr} {s t : State} (h : s.Inv) (hr : s.run = .running) (he : Effect s i t) : t.Inv := by
  have hready : s.run ≠ .ready := by simp [hr]
  have hfaulted : s.run ≠ .faulted := by simp [hr]
  have pc_past {k : Nat} (room : s.hasRoom k) : validAddress s.cfg (s.pc + BitVec.ofNat 64 k).toInt = true :=
    validAddress_pc_of_room (n := 0) room
  cases he with
  | held => exact h
  | faulted hF => exact h.faultedTo hready hF
  | stored v _ room hn hd => exact ((h.grown hn).written v hd).moved hready (pc_past room)
  | fellThrough _ room hn => exact h.past hready room hn
  | jumped _ hv hn => exact (h.grown hn).moved hready hv
  | rebased r room hn => exact (h.grown hn).moved hready (pc_past room)
  | halted room hn => exact (h.past hready room hn).ran hfaulted (by simp) (by simp)
  | inputFailed room hn | outputFailed _ room hn => exact (h.past hready room hn).raised rfl nofun
  | tookThenFaulted hu hF =>
    obtain ⟨-, -, -, -, -, hrun, -⟩ := hu.engine
    exact (hu.inv h).faultedTo (by rwa [hrun]) hF
  | @tookAndStored _ u v n d hu room hn hd =>
    obtain ⟨-, -, hmem, hlen, hcfg, hrun, -⟩ := hu.engine
    have hn' : u.GrowsTo n := by rwa [State.GrowsTo, hlen, hcfg]
    rw [← hmem]
    exact (((hu.inv h).grown hn').written v hd).moved (by rwa [hrun]) (by rw [hcfg]; exact pc_past room)
  | sent v hc room hn =>
    refine (h.past hready room hn).requeued h.queues_fit.1 ?_
    rw [List.length_append]
    exact Capacity.admits_of_hasRoom hc
  | printed v room hn => exact { h.past hready room hn with }

/-- A turn of the engine keeps the invariant. -/
theorem engineTurn_inv {s t : State} (h : s.Inv) (ht : engineTurn s = .next t) : t.Inv := by
  rcases engineTurn_cases ht with ⟨-, rfl⟩ | ⟨hr, ht⟩
  · exact h
  have hready : s.run ≠ .ready := by simp [hr]
  rcases engineCycle_cases ht with ⟨i, -, -, he⟩ | ⟨d, room, hd, rfl⟩ | ⟨hv, htop, rfl⟩ | ⟨hv, -⟩
  · exact (exec_effect he).inv h hr
  · have hv : validAddress s.cfg s.pc.toInt = true := h.pc_valid
    refine (h.past hready room ⟨le_extend _ _, extend_le_max hv⟩).raised rfl fun d' hd' => ?_
    cases hd'
    exact decode_error_admitsPayload hd
  · refine (h.grown ⟨le_extend _ _, extend_le_max hv⟩).raised rfl fun d hd => ?_
    cases hd
    simp [Cause.admitsPayload, validAddress, htop]
  · exact absurd h.pc_valid (by simp [hv])

theorem hostMove_inv {op : HostOp} {s t : State} (h : s.Inv) (ht : hostMove op s = .next t) : t.Inv := by
  rcases hostMove_cases ht with
    ⟨a, -, -, hv, rfl⟩ | ⟨a, v, -, -, hv, rfl⟩ | ⟨a, -, -, -, rfl⟩ | ⟨-, -, -, rfl⟩ | ⟨-, -, -, rfl⟩ | ⟨-, hr, rfl⟩
  · exact { h.grown ⟨le_extend _ _, extend_le_max hv⟩ with }
  · exact { (h.grown ⟨le_extend _ _, extend_le_max hv⟩).written v (lt_extend _ _) with }
  · exact { h with }
  · exact { h with }
  · exact { h with }
  · exact h.ran (by simp [hr]) (by simp) (by simp)

theorem environmentMove_inv {e : EnvMove} {s t : State} (h : s.Inv) (ht : environmentMove e s = .next t) : t.Inv := by
  obtain ⟨hin, hout⟩ := h.queues_fit
  rcases environmentMove_cases ht with
    ⟨v, -, -, hc, rfl⟩ | ⟨-, -, rfl⟩ | ⟨-, -, rfl⟩ | ⟨v, rest, -, -, hq, rfl⟩ | ⟨-, -, rfl⟩ | ⟨v, -, -, -, hc, rfl⟩ |
    ⟨-, -, rfl⟩ | ⟨-, -, rfl⟩ | ⟨v, rest, -, -, hq, rfl⟩ | ⟨l, -, rfl⟩
  case inl =>
    exact h.requeued (by rw [List.length_append]; exact Capacity.admits_of_hasRoom hc) hout
  case inr.inr.inr.inl =>
    rw [hq] at hout
    exact h.requeued hin (Capacity.admits_of_succ hout)
  case inr.inr.inr.inr.inr.inl =>
    exact h.requeued hin (by rw [List.length_append]; exact Capacity.admits_of_hasRoom hc)
  case inr.inr.inr.inr.inr.inr.inr.inr.inl =>
    rw [hq] at hin
    exact h.requeued (Capacity.admits_of_succ hin) hout
  all_goals exact { h with }

/-- Settles O36, agent by agent. -/
theorem stepKeepsInvariant : Obligations.StepKeepsInvariant := by
  intro s t h ht
  rcases step_agent_cases ht with ⟨a, -, ht⟩ | ⟨op, rest, -, ht⟩ | ⟨e, rest, -, ht⟩
  · exact engineTurn_inv (h.withAgenda a) ht
  · exact hostMove_inv (h.withAgenda rest) ht
  · exact environmentMove_inv (h.withAgenda rest) ht

/-- Settles O38: the placed image is canonical and ends at `LEN`; every other clause is of the reset state. -/
theorem loadMeetsInvariant : Obligations.LoadMeetsInvariant := by
  intro cfg image hcfg hlen
  have hadmits : ∀ c : Capacity, c.admits 0 = true := fun c => by cases c <;> simp [Capacity.admits]
  exact
    { cfg_legal := hcfg
      pc_valid := validAddress_iff.2 ⟨le_rfl, Int.natCast_nonneg _⟩
      mem_wf := wf_placeCells image rfl 0
      mem_below_len := fun a ha => by
        rw [load_len] at ha
        rw [load_mem, read_placeCells image rfl, if_neg (by omega)]
        rfl
      len_range := hlen
      ready_fresh := fun _ => ⟨rfl, rfl⟩
      cause_iff_faulted := by simp [State.reset]
      info_iff_payload := rfl
      payload_sound := nofun
      queues_fit := ⟨hadmits _, hadmits _⟩ }

/-- Settles O37: the reset state is the load of an empty image. -/
theorem resetMeetsInvariant : Obligations.ResetMeetsInvariant :=
  loadMeetsInvariant Config.standard [] rfl (Nat.zero_le _)

end Sys2Proof.Machine

/-!
# Rules of every instruction and of every step

The frames, and the rules that hold of every instruction or of every step. Each is read off the inversion lemmas: the
per-format ones of Laws/Exec for a frame that names its cell, `exec_effect` for a rule over all instructions,
`step_agent_cases` for a rule over all agents.
-/

namespace Sys2Proof.Machine

/-! ## Frames -/

theorem State.sameControl_refl (s : State) : s.sameControl s := ⟨rfl, rfl, rfl, rfl, rfl⟩

theorem State.sameInput_refl (s : State) : s.sameInput s := ⟨rfl, rfl, rfl⟩

theorem State.sameOutput_refl (s : State) : s.sameOutput s := ⟨rfl, rfl, rfl, rfl⟩

theorem State.sameControl.trans {s t u : State} (h : s.sameControl t) (h' : t.sameControl u) : s.sameControl u := by
  obtain ⟨h1, h2, h3, h4, h5⟩ := h
  obtain ⟨h1', h2', h3', h4', h5'⟩ := h'
  exact ⟨h1'.trans h1, h2'.trans h2, h3'.trans h3, h4'.trans h4, h5'.trans h5⟩

theorem State.sameOutput.trans {s t u : State} (h : s.sameOutput t) (h' : t.sameOutput u) : s.sameOutput u := by
  obtain ⟨h1, h2, h3, h4⟩ := h
  obtain ⟨h1', h2', h3', h4'⟩ := h'
  exact ⟨h1'.trans h1, h2'.trans h2, h3'.trans h3, h4'.trans h4⟩

theorem State.sameCells_of_mem_eq {s t : State} (h : t.mem = s.mem) : s.sameCells t := fun a => by rw [h]

theorem State.sameCellsBut_of_mem_eq {s t : State} {m : Digit} {p : Word} (h : t.mem = s.mem) :
    s.sameCellsBut t m p :=
  ⟨fun _ _ => fun a _ => by rw [h], fun _ => State.sameCells_of_mem_eq h⟩

/-- A store at the effective address of a destination leaves every other cell alone. -/
theorem State.sameCellsBut_of_write {s t : State} {m : Digit} {p v : Word} {d : Int} (hd : 0 ≤ d)
    (he : effectiveAddress m s.rb p = some d) (h : t.mem = s.mem.write d.toNat v) : s.sameCellsBut t m p := by
  refine ⟨fun d' hd' a ha => ?_, fun hn => by rw [he] at hn; cases hn⟩
  rw [he, Option.some.injEq] at hd'
  rw [h, Memory.read_write_ne]
  omega

/-- Settles O27: an operand fault keeps memory, a completed one has written the effective address alone. -/
theorem frameOfAddMulLtEq : Obligations.FrameOfAddMulLtEq := by
  intro m1 m2 m3 i s t hi h
  rcases exec_rrw_cases hi h with hF | ⟨-, n, d, v, -, -, -, he, hv, rfl⟩
  · obtain ⟨hrb, hmem, hctl, hin, hout, hrun, hcause⟩ := hF.frame
    exact ⟨hrb, hctl, hin, hout, State.sameCellsBut_of_mem_eq hmem, .inr ⟨hrun, hcause, hmem⟩⟩
  · exact ⟨rfl, s.sameControl_refl, s.sameInput_refl, s.sameOutput_refl,
      State.sameCellsBut_of_write (validAddress_iff.1 hv).1 he rfl, .inl ⟨rfl, rfl, rfl⟩⟩

/-- The input side after an item has been taken: one of the two providers has lost its head. -/
theorem State.TookInput.input {s u : State} {v : Word} (hu : s.TookInput u v) :
    (u.inQueue = s.inQueue ∨ (s.inBound = true ∧ u.inQueue = s.inQueue.tail)) ∧
    (u.consoleIn = s.consoleIn ∨ (s.inBound = false ∧ u.consoleIn = s.consoleIn.tail)) := by
  rcases hu with ⟨hb, rest, hq, rfl⟩ | ⟨hb, rest, hq, rfl⟩ <;> simp [hb, hq]

theorem State.TookInput.queues {s u : State} {v : Word} (hu : s.TookInput u v) :
    (s.inQueue = u.inQueue ∨ ∃ w, s.inQueue = w :: u.inQueue) ∧
    (u.outQueue = s.outQueue ∨ ∃ w, u.outQueue = s.outQueue ++ [w]) := by
  rcases hu with ⟨-, rest, hq, rfl⟩ | ⟨-, rest, -, rfl⟩ <;> simp [*]

/-- Settles O28, by what IN can do; the item taken and the operand's fault or store are told apart. -/
theorem frameOfIn : Obligations.FrameOfIn := by
  intro m1 s t h
  rcases execInp_cases h with rfl | hF | ⟨-, n, -, -, rfl⟩ | ⟨u, v, hu, hF | ⟨-, n, d, -, -, -, he, hv, rfl⟩⟩
  · exact ⟨rfl, t.sameControl_refl, t.sameOutput_refl, rfl, .inl rfl, .inl rfl, State.sameCellsBut_of_mem_eq rfl,
      .inl ⟨rfl, rfl, rfl⟩⟩
  · obtain ⟨hrb, hmem, hctl, ⟨hq, hs, hc⟩, hout, hrun, hcause⟩ := hF.frame
    exact ⟨hrb, hctl, hout, hs, .inl hq, .inl hc, State.sameCellsBut_of_mem_eq hmem, .inr ⟨hrun, hcause, hmem⟩⟩
  · exact ⟨rfl, s.sameControl_refl, s.sameOutput_refl, rfl, .inl rfl, .inl rfl, State.sameCellsBut_of_mem_eq rfl,
      .inr ⟨rfl, rfl, rfl⟩⟩
  · obtain ⟨hctl', hout', hs'⟩ := hu.frame
    obtain ⟨-, hrb', hmem', -⟩ := hu.engine
    obtain ⟨hrb, hmem, hctl, ⟨hq, hs, hc⟩, hout, hrun, hcause⟩ := hF.frame
    have hmem := hmem.trans hmem'
    rw [hq, hc]
    exact ⟨hrb.trans hrb', hctl'.trans hctl, hout'.trans hout, hs.trans hs', hu.input.1, hu.input.2,
      State.sameCellsBut_of_mem_eq hmem, .inr ⟨hrun, hcause, hmem⟩⟩
  · obtain ⟨hctl, hout, hs⟩ := hu.frame
    obtain ⟨-, hrb, -, -, -, hrun⟩ := hu.engine
    exact ⟨hrb, hctl, hout, hs, hu.input.1, hu.input.2,
      State.sameCellsBut_of_write (validAddress_iff.1 hv).1 he rfl, .inl hrun⟩

/-- Settles O29, by what OUT can do. -/
theorem frameOfOut : Obligations.FrameOfOut := by
  intro m1 s t h
  rcases execOut_cases h with
    rfl | hF | ⟨-, n, -, -, ⟨-, -, rfl⟩ | ⟨hb, -, -, rfl⟩ | ⟨hb, rfl⟩⟩
  · exact ⟨rfl, t.sameControl_refl, t.sameInput_refl, rfl, rfl, .inl rfl, .inl rfl, State.sameCells_of_mem_eq rfl,
      .inl ⟨rfl, rfl, rfl⟩⟩
  · obtain ⟨hrb, hmem, hctl, hin, ⟨hq, hr, hs, hc⟩, hrun, hcause⟩ := hF.frame
    exact ⟨hrb, hctl, hin, hr, hs, .inl hq, .inl hc, State.sameCells_of_mem_eq hmem, .inr ⟨hrun, hcause⟩⟩
  · exact ⟨rfl, s.sameControl_refl, s.sameInput_refl, rfl, rfl, .inl rfl, .inl rfl, State.sameCells_of_mem_eq rfl,
      .inr ⟨rfl, rfl⟩⟩
  · exact ⟨rfl, s.sameControl_refl, s.sameInput_refl, rfl, rfl, .inr ⟨hb, _, rfl⟩, .inl rfl,
      State.sameCells_of_mem_eq rfl, .inl ⟨rfl, rfl, rfl⟩⟩
  · exact ⟨rfl, s.sameControl_refl, s.sameInput_refl, rfl, rfl, .inl rfl, .inr ⟨hb, _, rfl⟩,
      State.sameCells_of_mem_eq rfl, .inl ⟨rfl, rfl, rfl⟩⟩

/-- An operand fault leaves alone all that the frame of JT, JF, ARB and HALT names. -/
theorem State.FaultedTo.frame_without_store {s t : State} {ms : List Digit} {c : Nat} (hF : s.FaultedTo ms c t) :
    s.sameControl t ∧ s.sameInput t ∧ s.sameOutput t ∧ s.sameCells t ∧ t.rb = s.rb ∧ s.sameRunOrFaulted t := by
  obtain ⟨hrb, hmem, hctl, hin, hout, hrun, hcause⟩ := hF.frame
  exact ⟨hctl, hin, hout, State.sameCells_of_mem_eq hmem, hrb, .inr ⟨hrun, hcause⟩⟩

theorem exec_rr_frame {m1 m2 : Digit} {i : Instr} {s t : State} (hi : i = .jt m1 m2 ∨ i = .jf m1 m2)
    (h : exec i s = .next t) :
    s.sameControl t ∧ s.sameInput t ∧ s.sameOutput t ∧ s.sameCells t ∧ t.rb = s.rb ∧ s.sameRunOrFaulted t := by
  rcases exec_rr_cases hi h with hF | ⟨-, n, -, -, rfl | ⟨-, rfl⟩⟩
  · exact hF.frame_without_store
  all_goals exact ⟨s.sameControl_refl, s.sameInput_refl, s.sameOutput_refl, State.sameCells_of_mem_eq rfl, rfl,
    .inl ⟨rfl, rfl, rfl⟩⟩

/-- Settles O30, format by format. -/
theorem frameOfJtJfArbHalt : Obligations.FrameOfJtJfArbHalt := by
  intro m1 m2 i s t hi h
  rcases hi with hi | hi | rfl | rfl
  · obtain ⟨hctl, hin, hout, hcells, hrb, hrun⟩ := exec_rr_frame (.inl hi) h
    exact ⟨hctl, hin, hout, hcells, .inl hrb, .inl hrun⟩
  · obtain ⟨hctl, hin, hout, hcells, hrb, hrun⟩ := exec_rr_frame (.inr hi) h
    exact ⟨hctl, hin, hout, hcells, .inl hrb, .inl hrun⟩
  · rcases execArb_cases h with hF | ⟨-, n, r, -, -, rfl⟩
    · obtain ⟨hctl, hin, hout, hcells, hrb, hrun⟩ := hF.frame_without_store
      exact ⟨hctl, hin, hout, hcells, .inl hrb, .inl hrun⟩
    · exact ⟨s.sameControl_refl, s.sameInput_refl, s.sameOutput_refl, State.sameCells_of_mem_eq rfl,
        .inr ⟨rfl, rfl⟩, .inl (.inl ⟨rfl, rfl, rfl⟩)⟩
  · rcases execHalt_cases h with hF | ⟨-, n, -, -, rfl⟩
    · obtain ⟨hctl, hin, hout, hcells, hrb, hrun⟩ := hF.frame_without_store
      exact ⟨hctl, hin, hout, hcells, .inl hrb, .inl hrun⟩
    · exact ⟨s.sameControl_refl, s.sameInput_refl, s.sameOutput_refl, State.sameCells_of_mem_eq rfl,
        .inl rfl, .inr ⟨rfl, rfl, rfl, rfl⟩⟩

/-! ## Rules of every instruction -/

/-- Settles O40: only a fault leaves Faulted, and each way to fault has touched neither memory, `rb` nor the output
side. -/
theorem faultsLeaveWritesUndone : Obligations.FaultsLeaveWritesUndone := by
  intro i s t hs h ht
  cases exec_effect h with
  | held | stored | fellThrough | jumped | rebased | sent | printed => exact absurd ht hs
  | halted => cases ht
  | faulted hF =>
    obtain ⟨hrb, hmem, -, -, hout, -⟩ := hF.frame
    obtain ⟨j, n, k, f, hj, -, -, -, -, -, rfl⟩ := hF
    exact ⟨hmem, hrb, hout, j, hj, rfl⟩
  | inputFailed => exact ⟨rfl, rfl, s.sameOutput_refl, 1, by simp [Instr.cells, Instr.modes], rfl⟩
  | outputFailed => exact ⟨rfl, rfl, s.sameOutput_refl, 2, le_rfl, rfl⟩
  | tookThenFaulted hu hF =>
    obtain ⟨hpc', hrb', hmem', -⟩ := hu.engine
    obtain ⟨-, hout', -⟩ := hu.frame
    obtain ⟨hrb, hmem, -, -, hout, -⟩ := hF.frame
    obtain ⟨j, n, k, f, hj, -, -, -, -, -, rfl⟩ := hF
    exact ⟨hmem.trans hmem', hrb.trans hrb', hout'.trans hout, j, hj, by rw [← hpc']; rfl⟩
  | tookAndStored hu =>
    obtain ⟨-, -, -, -, -, hrun, -⟩ := hu.engine
    exact absurd (hrun.symm.trans ht) hs

/-- Settles O41: each way to complete has counted the cells of its format. -/
theorem completedInstructionAdvancesByItsLength : Obligations.CompletedInstructionAdvancesByItsLength := by
  intro i s t hs h ht
  cases exec_effect h with
  | held hp => exact .inl ⟨rfl, hp⟩
  | stored v hi => rcases hi with rfl | rfl | rfl | rfl <;> exact .inr (.inl rfl)
  | fellThrough hi => rcases hi with rfl | rfl <;> exact .inr (.inl rfl)
  | jumped hi => exact .inr (.inr ⟨_, _, hi, rfl⟩)
  | rebased | halted | tookAndStored | sent | printed => exact .inr (.inl rfl)
  | faulted hF | tookThenFaulted _ hF =>
    obtain ⟨-, -, -, -, -, hrun, -⟩ := hF.frame
    exact absurd hrun ht
  | inputFailed | outputFailed => exact absurd rfl ht

/-- The kinds an operand fault can have, and its payload if it is the mode digit. -/
theorem State.FaultedTo.cause {s t : State} {ms : List Digit} {c : Nat} (hF : s.FaultedTo ms c t) :
    t.cause = some .outOfBounds ∨
      (t.cause = some .unrecognizedParameterMode ∧ ∃ k, ∃ h : k < ms.length, t.info = some ((ms[k]'h).val : Int)) := by
  obtain ⟨j, n, k, f, -, -, -, -, -, rfl | ⟨rfl, m, hm, rfl⟩, rfl⟩ := hF
  · exact .inl rfl
  · obtain ⟨k, hk, rfl⟩ := List.getElem_of_mem hm
    exact .inr ⟨rfl, k, hk, rfl⟩

/-- Settles O42: an operand fault is OutOfBounds or UnrecognizedParameterMode, and the ports have one kind each. -/
theorem faultKindsByInstruction : Obligations.FaultKindsByInstruction := by
  intro i s t hs h
  have of_fault {u : State} {c : Nat} (hF : u.FaultedTo i.modes c t) :
      (t.cause = some .inputError → ∃ m, i = .inp m) ∧
      (t.cause = some .outputError → (∃ m, i = .out m) ∧ s.outBound = true) ∧
      t.cause ≠ some .unrecognizedOpcode ∧
      (t.cause = some .unrecognizedParameterMode →
        ∃ k, ∃ h : k < i.modes.length, t.info = some ((i.modes[k]'h).val : Int)) := by
    rcases hF.cause with e | ⟨e, hm⟩
    · simp [e]
    · simp [e, hm]
  cases exec_effect h with
  | held | stored | fellThrough | jumped | rebased | halted | sent | printed => simp [hs, State.past]
  | faulted hF => exact of_fault hF
  | tookThenFaulted _ hF => exact of_fault hF
  | tookAndStored hu =>
    obtain ⟨-, -, -, -, -, -, hcause, -⟩ := hu.engine
    simp [hcause, hs]
  | inputFailed => simp
  | outputFailed hb => simp [hb]

/-! ## Rules of every step -/

theorem Effect.len_le {i : Instr} {s t : State} (he : Effect s i t) : s.len ≤ t.len := by
  cases he with
  | held => exact le_rfl
  | faulted hF =>
    obtain ⟨j, n, k, f, -, hn, -, -, -, -, rfl⟩ := hF
    exact hn
  | stored _ _ _ hn | fellThrough _ _ hn | jumped _ _ hn | rebased _ _ hn | halted _ hn | inputFailed _ hn
  | tookAndStored _ _ hn | outputFailed _ _ hn | sent _ _ _ hn | printed _ _ hn => exact hn.1
  | tookThenFaulted hu hF =>
    obtain ⟨-, -, -, hlen, -⟩ := hu.engine
    obtain ⟨j, n, k, f, -, hn, -, -, -, -, rfl⟩ := hF
    exact hlen.symm.le.trans hn

theorem engineTurn_len_le {s t : State} (h : engineTurn s = .next t) : s.len ≤ t.len := by
  rcases engineTurn_cases h with ⟨-, rfl⟩ | ⟨-, h⟩
  · exact le_rfl
  rcases engineCycle_cases h with ⟨i, -, -, he⟩ | ⟨d, -, -, rfl⟩ | ⟨-, -, rfl⟩ | ⟨-, rfl⟩
  · exact (exec_effect he).len_le
  · exact le_extend _ _
  · exact le_extend _ _
  · exact le_rfl

/-- The host changes no register but STATE, and that from Ready to Running (rules R35, R118). -/
theorem hostMove_frame {op : HostOp} {s t : State} (h : hostMove op s = .next t) :
    t.pc = s.pc ∧ t.rb = s.rb ∧ t.cause = s.cause ∧ t.info = s.info ∧ t.cfg = s.cfg ∧ t.inQueue = s.inQueue ∧
      t.outQueue = s.outQueue ∧ s.len ≤ t.len ∧ (t.run = s.run ∨ (s.run = .ready ∧ t.run = .running)) := by
  rcases hostMove_cases h with
    ⟨a, -, -, -, rfl⟩ | ⟨a, v, -, -, -, rfl⟩ | ⟨a, -, -, -, rfl⟩ | ⟨-, -, -, rfl⟩ | ⟨-, -, -, rfl⟩ | ⟨-, hr, rfl⟩
  case inr.inr.inr.inr.inr => exact ⟨rfl, rfl, rfl, rfl, rfl, rfl, rfl, le_rfl, .inr ⟨hr, rfl⟩⟩
  all_goals simp [le_extend]

/-- The environment changes nothing but what stands behind the ports (rules R31, R198). -/
theorem environmentMove_frame {e : EnvMove} {s t : State} (h : environmentMove e s = .next t) :
    t.pc = s.pc ∧ t.rb = s.rb ∧ t.cause = s.cause ∧ t.info = s.info ∧ t.cfg = s.cfg ∧ t.mem = s.mem ∧
      t.len = s.len ∧ t.run = s.run ∧ t.inBound = s.inBound ∧ t.outBound = s.outBound := by
  rcases environmentMove_cases h with
    ⟨v, -, -, -, rfl⟩ | ⟨-, -, rfl⟩ | ⟨-, -, rfl⟩ | ⟨v, rest, -, -, -, rfl⟩ | ⟨-, -, rfl⟩ | ⟨v, -, -, -, -, rfl⟩ |
    ⟨-, -, rfl⟩ | ⟨-, -, rfl⟩ | ⟨v, rest, -, -, -, rfl⟩ | ⟨l, -, rfl⟩
  all_goals exact ⟨rfl, rfl, rfl, rfl, rfl, rfl, rfl, rfl, rfl, rfl⟩

/-- Settles O45, agent by agent. -/
theorem lenNeverDecreases : Obligations.LenNeverDecreases := by
  intro s t h
  rcases step_agent_cases h with ⟨a, -, h⟩ | ⟨op, rest, -, h⟩ | ⟨e, rest, -, h⟩
  · have hlen := engineTurn_len_le h
    exact hlen
  · obtain ⟨-, -, -, -, -, -, -, hlen, -⟩ := hostMove_frame h
    exact hlen
  · obtain ⟨-, -, -, -, -, -, hlen, -⟩ := environmentMove_frame h
    exact hlen.symm.le

/-- Settles O43: a stopped engine has no cycle, and neither host nor environment writes its registers. -/
theorem stoppedEngineStaysStopped : Obligations.StoppedEngineStaysStopped := by
  intro s t hs h
  have hrun : s.run ≠ .running := by rcases hs with hs | hs <;> simp [hs]
  have hready : s.run ≠ .ready := by rcases hs with hs | hs <;> simp [hs]
  rcases step_agent_cases h with ⟨a, -, h⟩ | ⟨op, rest, -, h⟩ | ⟨e, rest, -, h⟩
  · rw [engineTurn_of_not_running (by exact hrun)] at h
    cases h
    exact ⟨rfl, rfl, rfl, rfl, rfl⟩
  · obtain ⟨hpc, hrb, hcause, hinfo, -, -, -, -, hr | ⟨hr, -⟩⟩ := hostMove_frame h
    · exact ⟨hr, hcause, hinfo, hpc, hrb⟩
    · exact absurd hr hready
  · obtain ⟨hpc, hrb, hcause, hinfo, -, -, -, hr, -⟩ := environmentMove_frame h
    exact ⟨hr, hcause, hinfo, hpc, hrb⟩

theorem step_of_host {s : State} {op : HostOp} {rest : List Move} (ha : s.agenda = .host op :: rest) :
    step s = hostMove op { s with agenda := rest } := by
  simp only [step, ha, move]

theorem step_of_environment {s : State} {e : EnvMove} {rest : List Move} (ha : s.agenda = .environment e :: rest) :
    step s = environmentMove e { s with agenda := rest } := by
  simp only [step, ha, move]

/-- Settles O50, by the frames of the two agents. -/
theorem outsideCannotTouchRegisters : Obligations.OutsideCannotTouchRegisters := by
  refine ⟨fun op rest s t ha h => ?host, fun e rest s t ha h => ?environment⟩
  case host =>
    rw [step_of_host ha] at h
    obtain ⟨hpc, hrb, hcause, hinfo, hcfg, -⟩ := hostMove_frame h
    exact ⟨hpc, hrb, hcause, hinfo, hcfg⟩
  case environment =>
    rw [step_of_environment ha] at h
    have hframe := environmentMove_frame h
    exact hframe

/-- An instruction takes at most the head of the input queue, and appends at most one value to the output queue. -/
theorem Effect.queues {i : Instr} {s t : State} (he : Effect s i t) :
    (s.inQueue = t.inQueue ∨ ∃ v, s.inQueue = v :: t.inQueue) ∧
    (t.outQueue = s.outQueue ∨ ∃ v, t.outQueue = s.outQueue ++ [v]) := by
  cases he with
  | held | stored | fellThrough | jumped | rebased | halted | inputFailed | outputFailed | printed =>
    exact ⟨.inl rfl, .inl rfl⟩
  | sent v => exact ⟨.inl rfl, .inr ⟨v, rfl⟩⟩
  | faulted hF =>
    obtain ⟨-, -, -, ⟨hin, -⟩, ⟨hout, -⟩, -⟩ := hF.frame
    exact ⟨.inl hin.symm, .inl hout⟩
  | tookThenFaulted hu hF =>
    obtain ⟨-, -, -, ⟨hin, -⟩, ⟨hout, -⟩, -⟩ := hF.frame
    rw [hin, hout]
    exact hu.queues
  | tookAndStored hu => exact hu.queues

/-- What an environment move does to the two queues. -/
theorem environmentMove_queues {e : EnvMove} {s t : State} (h : environmentMove e s = .next t) :
    (∀ v, e = .send v → t.inQueue = s.inQueue ++ [v] ∧ t.outQueue = s.outQueue) ∧
    (e = .receiveIn → (∃ v, s.inQueue = v :: t.inQueue) ∧ t.outQueue = s.outQueue) ∧
    (∀ v, e = .sendOut v → t.inQueue = s.inQueue ∧ t.outQueue = s.outQueue ++ [v]) ∧
    (e = .receive → t.inQueue = s.inQueue ∧ ∃ v, s.outQueue = v :: t.outQueue) ∧
    ((∀ v, e ≠ .send v) → e ≠ .receiveIn → (∀ v, e ≠ .sendOut v) → e ≠ .receive →
      t.inQueue = s.inQueue ∧ t.outQueue = s.outQueue) := by
  rcases environmentMove_cases h with
    ⟨v, rfl, -, -, rfl⟩ | ⟨rfl, -, rfl⟩ | ⟨rfl, -, rfl⟩ | ⟨v, rest, rfl, -, hq, rfl⟩ | ⟨rfl, -, rfl⟩ |
    ⟨v, rfl, -, -, -, rfl⟩ | ⟨rfl, -, rfl⟩ | ⟨rfl, -, rfl⟩ | ⟨v, rest, rfl, -, hq, rfl⟩ | ⟨l, rfl, rfl⟩
  all_goals simp [*]

/-- Settles O47, agent by agent. -/
theorem channelsAreFirstInFirstOut : Obligations.ChannelsAreFirstInFirstOut := by
  refine ⟨fun i s t h => (exec_effect h).queues, fun e rest s t ha h => ?environment, fun op rest s t ha h => ?host⟩
  case environment =>
    rw [step_of_environment ha] at h
    have hqueues := environmentMove_queues h
    exact hqueues
  case host =>
    rw [step_of_host ha] at h
    obtain ⟨-, -, -, -, -, hin, hout, -⟩ := hostMove_frame h
    exact ⟨hin, hout⟩

/-- Only ARB writes `rb`. -/
theorem Effect.rb_eq {i : Instr} {s t : State} (he : Effect s i t) (hi : ∀ m, i ≠ .arb m) : t.rb = s.rb := by
  cases he with
  | rebased => exact absurd rfl (hi _)
  | faulted hF =>
    obtain ⟨hrb, -⟩ := hF.frame
    exact hrb
  | tookThenFaulted hu hF =>
    obtain ⟨-, hrb', -⟩ := hu.engine
    obtain ⟨hrb, -⟩ := hF.frame
    exact hrb.trans hrb'
  | tookAndStored hu =>
    obtain ⟨-, hrb, -⟩ := hu.engine
    exact hrb
  | held | stored | fellThrough | jumped | halted | inputFailed | outputFailed | sent | printed => rfl

/-- Only HALT halts. -/
theorem Effect.run_ne_halted {i : Instr} {s t : State} (he : Effect s i t) (hi : i ≠ .halt) (hs : s.run ≠ .halted) :
    t.run ≠ .halted := by
  cases he with
  | halted => exact absurd rfl hi
  | faulted hF | tookThenFaulted _ hF =>
    obtain ⟨-, -, -, -, -, hrun, -⟩ := hF.frame
    simp [hrun]
  | tookAndStored hu =>
    obtain ⟨-, -, -, -, -, hrun, -⟩ := hu.engine
    simpa [hrun] using hs
  | held | stored | fellThrough | jumped | rebased | sent | printed => exact hs
  | inputFailed | outputFailed => simp

/-- Settles O39: outside a cycle `rb` is in the frame, and in a cycle `Effect.rb_eq` leaves only ARB. -/
theorem onlyArbWritesRelativeBase : Obligations.OnlyArbWritesRelativeBase := by
  intro s t h hne
  rcases step_agent_cases h with ⟨a, ha, h⟩ | ⟨op, rest, -, h⟩ | ⟨e, rest, -, h⟩
  · rcases engineTurn_cases h with ⟨-, rfl⟩ | ⟨hrun, h⟩
    · exact absurd rfl hne
    rcases engineCycle_cases h with ⟨i, -, hi, he⟩ | ⟨d, -, -, rfl⟩ | ⟨-, -, rfl⟩ | ⟨-, rfl⟩
    · refine ⟨hrun, ?_, ?_⟩
      · rcases ha with ⟨ha, -⟩ | ha
        · exact .inl ha
        · exact .inr (by rw [ha]; rfl)
      · by_contra hno
        exact hne ((exec_effect he).rb_eq fun m hm => hno ⟨m, by rw [← hm]; exact hi⟩)
    all_goals exact absurd rfl hne
  · obtain ⟨-, hrb, -⟩ := hostMove_frame h
    exact absurd hrb hne
  · obtain ⟨-, hrb, -⟩ := environmentMove_frame h
    exact absurd hrb hne

/-- What leads to Halted is a HALT of a running engine. -/
theorem halted_of_step {s t : State} (h : step s = .next t) (ht : t.run = .halted) (hs : s.run ≠ .halted) :
    s.run = .running ∧ decode (s.cell s.pc.toInt) = .ok .halt := by
  rcases step_agent_cases h with ⟨a, -, h⟩ | ⟨op, rest, -, h⟩ | ⟨e, rest, -, h⟩
  · rcases engineTurn_cases h with ⟨-, rfl⟩ | ⟨hrun, h⟩
    · exact absurd ht hs
    rcases engineCycle_cases h with ⟨i, -, hi, he⟩ | ⟨d, -, -, rfl⟩ | ⟨-, -, rfl⟩ | ⟨-, rfl⟩
    · refine ⟨hrun, ?_⟩
      by_contra hno
      exact (exec_effect he).run_ne_halted (fun e => hno (by rw [← e]; exact hi)) hs ht
    all_goals cases ht
  · obtain ⟨-, -, -, -, -, -, -, -, hr | ⟨-, hr⟩⟩ := hostMove_frame h
    · exact absurd (hr.symm.trans ht) hs
    · rw [hr] at ht
      cases ht
  · obtain ⟨-, -, -, -, -, -, -, hr, -⟩ := environmentMove_frame h
    exact absurd (hr.symm.trans ht) hs

end Sys2Proof.Machine

/-!
# What an instruction does not depend on

One argument for two noninterference rules. A relation between states that fixes what the engine computes with, and that
each elementary update keeps (`EngineRelation`), is kept by every instruction that leaves the ports alone
(`exec_related`). It is used for "the same but for `LEN`" and for "the same but for the ports".
-/

namespace Sys2Proof.Machine

/-- `R` fixes what an instruction computes with, and the updates an instruction is made of keep it. -/
structure EngineRelation (R : State → State → Prop) : Prop where
  pc : ∀ {s t}, R s t → t.pc = s.pc
  rb : ∀ {s t}, R s t → t.rb = s.rb
  mem : ∀ {s t}, R s t → t.mem = s.mem
  cfg : ∀ {s t}, R s t → t.cfg = s.cfg
  setPc : ∀ {s t} (v : Word), R s t → R { s with pc := v } { t with pc := v }
  setRb : ∀ {s t} (v : Word), R s t → R { s with rb := v } { t with rb := v }
  setMem : ∀ {s t} (m : Memory), R s t → R { s with mem := m } { t with mem := m }
  grow : ∀ {s t} (a : Int), R s t → R { s with len := extend s.len a } { t with len := extend t.len a }
  halt : ∀ {s t}, R s t → R { s with run := .halted } { t with run := .halted }
  raise : ∀ {s t} (k : Cause) (i : Option Int), R s t → R (raise k i s) (raise k i t)

/-- Two operations end alike, in related states. -/
inductive Flow.Related (R : State → State → Prop) {α : Type} : Flow α → Flow α → Prop
  | done (a : α) {s t : State} (h : R s t) : Related R (.done a s) (.done a t)
  | raised {s t : State} (h : R s t) : Related R (.raised s) (.raised t)
  | held : Related R .held .held
  | refused (r : Refusal) : Related R (.refused r) (.refused r)

/-- Two steps end alike, in related states. -/
inductive OutcomeRelated (R : State → State → Prop) :
    Host.Outcome State Fault Refusal → Host.Outcome State Fault Refusal → Prop
  | next {s t : State} (h : R s t) : OutcomeRelated R (.next s) (.next t)
  | refused (r : Refusal) : OutcomeRelated R (.refused r) (.refused r)

section
variable {R : State → State → Prop}

theorem Flow.Related.bind {α β : Type} {x y : Flow α} {f g : α → State → Flow β} (h : Flow.Related R x y)
    (hf : ∀ a s t, R s t → Flow.Related R (f a s) (g a t)) : Flow.Related R (x.bind f) (y.bind g) := by
  cases h with
  | done a h => exact hf a _ _ h
  | raised h => exact .raised h
  | held => exact .held
  | refused r => exact .refused r

theorem Flow.Related.outcome {x y : Flow Unit} {s t : State} (h : Flow.Related R x y) (hst : R s t) :
    OutcomeRelated R (x.outcome s) (y.outcome t) := by
  cases h with
  | done _ h | raised h => exact .next h
  | held => exact .next hst
  | refused r => exact .refused r

variable (hR : EngineRelation R) {s t : State} (h : R s t)
include hR h

theorem checkAddr_related (a : Int) : Flow.Related R (checkAddr a s) (checkAddr a t) := by
  unfold checkAddr
  rw [hR.cfg h]
  split
  · exact .done _ h
  · exact .raised (hR.raise _ _ h)

theorem memRead_related (a : Int) : Flow.Related R (memRead a s) (memRead a t) := by
  refine (checkAddr_related hR h a).bind fun _ s t h => ?_
  have hcell : t.cell a = s.cell a := by rw [State.cell, hR.mem h, State.cell]
  rw [hcell]
  exact .done _ (hR.grow a h)

theorem memWrite_related (a : Int) (v : Word) : Flow.Related R (memWrite a v s) (memWrite a v t) := by
  refine (checkAddr_related hR h a).bind fun _ s t h => ?_
  rw [hR.mem h]
  exact .done _ (hR.setMem _ (hR.grow a h))

theorem nextCell_related : Flow.Related R (nextCell s) (nextCell t) := by
  unfold nextCell
  rw [hR.pc h]
  refine (memRead_related hR h _).bind fun v s t h => ?_
  have htop : (t.cfg.addrMax.val : Int) = s.cfg.addrMax.val := by rw [hR.cfg h]
  rw [hR.pc h, htop]
  split
  · exact .raised (hR.raise _ _ h)
  · exact .done _ (hR.setPc _ h)

theorem jumpTo_related (b : Word) : Flow.Related R (jumpTo b s) (jumpTo b t) :=
  (checkAddr_related hR h _).bind fun _ _ _ h => .done _ (hR.setPc _ h)

theorem readOperand_related (m : Digit) : Flow.Related R (readOperand m s) (readOperand m t) := by
  refine (nextCell_related hR h).bind fun p s t h => ?_
  rw [hR.rb h]
  split
  · exact memRead_related hR h _
  · split
    · exact .done _ h
    · exact .raised (hR.raise _ _ h)

theorem writeOperand_related (m : Digit) (v : Word) : Flow.Related R (writeOperand m v s) (writeOperand m v t) := by
  refine (nextCell_related hR h).bind fun p s t h => ?_
  rw [hR.rb h]
  split
  · exact memWrite_related hR h _ _
  · exact .raised (hR.raise _ _ h)

theorem narrow_related (exact : Int) : Flow.Related R (narrow exact s) (narrow exact t) := by
  unfold narrow
  rw [hR.cfg h]
  split
  · exact .done _ h
  · split
    · exact .done _ h
    · exact .refused _

theorem instruction_related {body : State → Flow Unit}
    (hbody : ∀ s t, R s t → Flow.Related R (body s) (body t)) :
    OutcomeRelated R (instruction body s) (instruction body t) :=
  ((nextCell_related hR h).bind fun _ _ _ h => hbody _ _ h).outcome h

theorem formatRRW_related {compute : Word → Word → State → Flow Word} (m1 m2 m3 : Digit)
    (hc : ∀ a b s t, R s t → Flow.Related R (compute a b s) (compute a b t)) :
    Flow.Related R (formatRRW compute m1 m2 m3 s) (formatRRW compute m1 m2 m3 t) :=
  (readOperand_related hR h m1).bind fun a _ _ h =>
    (readOperand_related hR h m2).bind fun b _ _ h =>
      (hc a b _ _ h).bind fun r _ _ h => writeOperand_related hR h m3 r

theorem formatRR_related (taken : Word → Bool) (m1 m2 : Digit) :
    Flow.Related R (formatRR taken m1 m2 s) (formatRR taken m1 m2 t) := by
  refine (readOperand_related hR h m1).bind fun a _ _ h => (readOperand_related hR h m2).bind fun b _ _ h => ?_
  split
  · exact jumpTo_related hR h b
  · exact .done _ h

/-- Every instruction that leaves the ports alone keeps an engine relation. -/
theorem exec_related {i : Instr} (hi : usesPort i = false) : OutcomeRelated R (exec i s) (exec i t) := by
  cases i with
  | add m1 m2 m3 | mul m1 m2 m3 =>
    exact instruction_related hR h fun _ _ h =>
      formatRRW_related hR h m1 m2 m3 fun _ _ _ _ h => narrow_related hR h _
  | lt m1 m2 m3 | eq m1 m2 m3 =>
    exact instruction_related hR h fun _ _ h => formatRRW_related hR h m1 m2 m3 fun _ _ _ _ h => .done _ h
  | jt m1 m2 | jf m1 m2 => exact instruction_related hR h fun _ _ h => formatRR_related hR h _ m1 m2
  | arb m1 =>
    refine instruction_related hR h fun _ _ h => (readOperand_related hR h m1).bind fun a s t h => ?_
    rw [hR.rb h]
    exact (narrow_related hR h _).bind fun r _ _ h => .done _ (hR.setRb r h)
  | halt => exact instruction_related hR h fun _ _ h => .done _ (hR.halt h)
  | inp | out => cases hi

end

/-! ## The same but for the ports -/

/-- `t` is `s` with the ports of `p`. -/
def PortsReplacedBy (p s t : State) : Prop := t = s.withPortsOf p

theorem portsReplacedBy_engineRelation (p : State) : EngineRelation (PortsReplacedBy p) where
  pc := by rintro s _ rfl; rfl
  rb := by rintro s _ rfl; rfl
  mem := by rintro s _ rfl; rfl
  cfg := by rintro s _ rfl; rfl
  setPc := by rintro s _ v rfl; rfl
  setRb := by rintro s _ v rfl; rfl
  setMem := by rintro s _ m rfl; rfl
  grow := by rintro s _ a rfl; rfl
  halt := by rintro s _ rfl; rfl
  raise := by rintro s _ k i rfl; rfl

/-- Settles O46: replacing the ports is an engine relation. -/
theorem otherInstructionsIgnorePorts : Obligations.OtherInstructionsIgnorePorts := by
  intro i s p hi
  have h := exec_related (portsReplacedBy_engineRelation p) (s := s) rfl hi
  generalize exec i s = o, exec i (s.withPortsOf p) = o' at h ⊢
  cases h with
  | next h => exact congrArg _ h
  | refused r => rfl

/-! ## The same but for `LEN` -/

/-- `t` is `s` but for `LEN`. -/
def SameButLen (s t : State) : Prop := ∃ n, t = { s with len := n }

theorem sameButLen_engineRelation : EngineRelation SameButLen where
  pc := by rintro s _ ⟨n, rfl⟩; rfl
  rb := by rintro s _ ⟨n, rfl⟩; rfl
  mem := by rintro s _ ⟨n, rfl⟩; rfl
  cfg := by rintro s _ ⟨n, rfl⟩; rfl
  setPc := by rintro s _ v ⟨n, rfl⟩; exact ⟨n, rfl⟩
  setRb := by rintro s _ v ⟨n, rfl⟩; exact ⟨n, rfl⟩
  setMem := by rintro s _ m ⟨n, rfl⟩; exact ⟨n, rfl⟩
  grow := by rintro s _ a ⟨n, rfl⟩; exact ⟨extend n a, rfl⟩
  halt := by rintro s _ ⟨n, rfl⟩; exact ⟨n, rfl⟩
  raise := by rintro s _ k i ⟨n, rfl⟩; exact ⟨n, rfl⟩

theorem SameButLen.withoutLen_eq {s t : State} (h : SameButLen s t) : s.withoutLen = t.withoutLen := by
  obtain ⟨n, rfl⟩ := h
  rfl

theorem OutcomeRelated.withoutLen_eq {o o' : Host.Outcome State Fault Refusal} (h : OutcomeRelated SameButLen o o') :
    outcomeWithoutLen o = outcomeWithoutLen o' := by
  cases h with
  | next h => exact congrArg Host.Outcome.next h.withoutLen_eq
  | refused r => rfl

section
variable {s t : State} (h : SameButLen s t)
include h

theorem inRecv_sameButLen : Flow.Related SameButLen (inRecv s) (inRecv t) := by
  obtain ⟨n, rfl⟩ := h
  unfold inRecv channelRecv consoleRecv
  dsimp only
  split
  · split
    · exact .done _ ⟨n, rfl⟩
    · split
      · exact .raised ⟨n, rfl⟩
      · exact .held
  · split
    · exact .done _ ⟨n, rfl⟩
    · exact .raised ⟨n, rfl⟩
    · exact .held

theorem outSend_sameButLen (v : Word) : Flow.Related SameButLen (outSend v s) (outSend v t) := by
  obtain ⟨n, rfl⟩ := h
  unfold outSend channelSend consoleSend
  dsimp only
  split
  · split
    · split
      · exact .done _ ⟨n, rfl⟩
      · exact .held
    · exact .raised ⟨n, rfl⟩
  · exact .done _ ⟨n, rfl⟩

theorem exec_sameButLen (i : Instr) : OutcomeRelated SameButLen (exec i s) (exec i t) := by
  have hR := sameButLen_engineRelation
  cases i with
  | inp m1 =>
    exact instruction_related hR h fun _ _ h =>
      (inRecv_sameButLen h).bind fun v _ _ h => writeOperand_related hR h m1 v
  | out m1 =>
    exact instruction_related hR h fun _ _ h =>
      (readOperand_related hR h m1).bind fun v _ _ h => outSend_sameButLen h v
  | add | mul | lt | eq | jt | jf | arb | halt => exact exec_related hR h rfl

theorem engineCycle_sameButLen : OutcomeRelated SameButLen (engineCycle s) (engineCycle t) := by
  have hnext := nextCell_related sameButLen_engineRelation h
  unfold engineCycle
  generalize nextCell s = x, nextCell t = y at hnext
  cases hnext with
  | done w h' =>
    dsimp only
    split
    · exact exec_sameButLen h _
    · exact .next (sameButLen_engineRelation.raise _ _ h')
  | raised h' => exact .next h'
  | held => exact .next h
  | refused r => exact .refused r

theorem SameButLen.run_eq : t.run = s.run := by
  obtain ⟨n, rfl⟩ := h
  rfl

theorem SameButLen.reply (r : HostReply) : SameButLen (reply r s) (reply r t) := by
  obtain ⟨n, rfl⟩ := h
  exact ⟨n, rfl⟩

theorem engineTurn_sameButLen : OutcomeRelated SameButLen (engineTurn s) (engineTurn t) := by
  unfold engineTurn
  rw [h.run_eq]
  split
  · exact engineCycle_sameButLen h
  all_goals exact .next h

theorem hostGet_sameButLen (a : Word) : OutcomeRelated SameButLen (hostGet a s) (hostGet a t) := by
  have hread := memRead_related sameButLen_engineRelation h a.toInt
  unfold hostGet
  rw [h.run_eq]
  split
  · exact .refused _
  · generalize memRead a.toInt s = x, memRead a.toInt t = y at hread
    cases hread with
    | done v h' => exact .next (h'.reply _)
    | raised => exact .next (h.reply _)
    | held => exact .next h
    | refused r => exact .refused r

theorem hostSet_sameButLen (a v : Word) : OutcomeRelated SameButLen (hostSet a v s) (hostSet a v t) := by
  have hwrite := memWrite_related sameButLen_engineRelation h a.toInt v
  unfold hostSet
  rw [h.run_eq]
  split
  · exact .refused _
  · generalize memWrite a.toInt v s = x, memWrite a.toInt v t = y at hwrite
    cases hwrite with
    | done _ h' => exact .next (h'.reply _)
    | raised => exact .next (h.reply _)
    | held => exact .next h
    | refused r => exact .refused r

theorem hostMove_sameButLen (op : HostOp) : OutcomeRelated SameButLen (hostMove op s) (hostMove op t) := by
  cases op with
  | get a => exact hostGet_sameButLen h a
  | set a v => exact hostSet_sameButLen h a v
  | bindInput | bindOutput =>
    obtain ⟨n, rfl⟩ := h
    simp only [hostMove, hostBindInput, hostBindOutput]
    split
    · exact .refused _
    · split
      · exact .refused _
      · exact .next ⟨n, rfl⟩
  | run =>
    obtain ⟨n, rfl⟩ := h
    simp only [hostMove, hostRun]
    split
    · exact .next ⟨n, rfl⟩
    · exact .refused _

theorem environmentMove_sameButLen (e : EnvMove) :
    OutcomeRelated SameButLen (environmentMove e s) (environmentMove e t) := by
  obtain ⟨n, rfl⟩ := h
  cases e with
  | consoleLine l => exact .next ⟨n, rfl⟩
  | receiveIn =>
    have hhost : ({ s with len := n } : State).hostHasReceiver = s.hostHasReceiver := rfl
    unfold environmentMove
    rw [hhost]
    dsimp only
    split
    · exact .next ⟨n, rfl⟩
    · exact .refused _
  | send | cloneSender | dropSender | receive | dropReceiver | sendOut | cloneOutSender | dropOutSender =>
    unfold environmentMove State.foreignOutSender
    dsimp only
    split
    · exact .next ⟨n, rfl⟩
    · exact .refused _

end

theorem move_sameButLen {s t : State} (m : Move) (h : SameButLen s t) :
    OutcomeRelated SameButLen (move m s) (move m t) := by
  cases m with
  | engine => exact engineTurn_sameButLen h
  | host op => exact hostMove_sameButLen h op
  | environment e => exact environmentMove_sameButLen h e

/-- Settles O44: being the same but for `LEN` is kept by every move of every agent. -/
theorem lenIsUnobservable : Obligations.LenIsUnobservable := by
  intro s n
  have h : OutcomeRelated SameButLen (step s) (step { s with len := n }) := by
    simp only [step]
    split
    · exact engineTurn_sameButLen ⟨n, rfl⟩
    · exact move_sameButLen _ ⟨n, rfl⟩
  exact h.withoutLen_eq.symm

end Sys2Proof.Machine

/-!
# Operands and instructions

The whole next state of each instruction. The operand lemmas of Laws/Exec are specialised once to the first and second
parameter, in the words `lenOne`, `lenTwo` of the statements; each format is then run once, for all
its instructions.
-/

namespace Sys2Proof.Machine

/-! ## The primitives -/

/-- Settles O8, by the two answers of the immediate read. -/
theorem immediateReadAdvancesOrFaults : Obligations.ImmediateReadAdvancesOrFaults :=
  ⟨fun _ h0 h1 => ⟨_, nextCell_of_room ⟨h0, h1⟩, toInt_add_one h0 h1, rfl⟩, fun _ => nextCell_at_top⟩

/-- Rule R8: `wrap64` is the remainder in the range of `i64`. -/
theorem toInt_wrap64 (v : Int) : (wrap64 v).toInt = (v + 2 ^ 63) % 2 ^ 64 - 2 ^ 63 := by
  rw [wrap64, BitVec.toInt_ofInt, Int.bmod_def]
  split <;> omega

theorem fits64_iff {v : Int} : fits64 v = true ↔ -2 ^ 63 ≤ v ∧ v ≤ 2 ^ 63 - 1 := by
  simp [fits64]

/-- Settles O12: what fits is its own remainder. -/
theorem wrapIsCongruentAndExactWhereItFits : Obligations.WrapIsCongruentAndExactWhereItFits := by
  refine fun v => ⟨toInt_wrap64 v, fun hv => ?_⟩
  obtain ⟨h0, h1⟩ := fits64_iff.1 hv
  rw [toInt_wrap64]
  omega

theorem narrow_of_wrap {exact : Int} {s : State} (h : s.cfg.ovfMode = .wrap) :
    narrow exact s = .done (wrap64 exact) s := by
  unfold narrow
  split
  · rfl
  · rw [h]

theorem narrow_of_refuse {exact : Int} {s : State} (h : s.cfg.ovfMode = .refuse) (hf : fits64 exact = false) :
    narrow exact s = .refused (.resultOutsideI64 exact) := by
  simp only [narrow, hf, h, Bool.false_eq_true, if_false]

/-- The word that denotes the wrapped result is `wrap64` of it. -/
theorem narrow_of_wrapped {exact : Int} {r : Word} {s : State} (h : s.cfg.ovfMode = .wrap)
    (hr : r.toInt = (exact + 2 ^ 63) % 2 ^ 64 - 2 ^ 63) : narrow exact s = .done r s := by
  rw [narrow_of_wrap h, BitVec.eq_of_toInt_eq (hr.trans (toInt_wrap64 exact).symm)]

/-! ## Operands -/

theorem hasRoom_zero_of_top {s : State} (h0 : 0 ≤ s.pc.toInt) (h1 : s.pc.toInt = s.cfg.addrMax.val) : s.hasRoom 0 :=
  ⟨h0, by simp [h1]⟩

/-- The parameter at `pc` itself cannot be consumed at the top of the address space. -/
theorem faultAfter_zero_at_top (s : State) (len : Nat) :
    s.faultAfter 0 (extend len (s.pc.toInt + (0 : Nat))) (.outOfBounds, s.pc.toInt + (0 : Nat) + 1) =
      s.faultAfter 0 (extend len s.pc.toInt) (.outOfBounds, s.pc.toInt + 1) := by
  simp

theorem effectiveAddress_eq_none {m : Digit} (h0 : m ≠ 0) (h2 : m ≠ 2) (rb p : Word) :
    effectiveAddress m rb p = none := by
  unfold effectiveAddress
  split
  · exact absurd (Fin.ext (by assumption)) h0
  · exact absurd (Fin.ext (by assumption)) h2
  · rfl

/-- The modes that address a cell, position and relative, at once (rule R114). -/
theorem effectiveAddress_of_mode {m : Digit} (hm : m = 0 ∨ m = 2) (rb p : Word) :
    effectiveAddress m rb p = some (if m = 0 then p.toInt else rb.toInt + p.toInt) := by
  rcases hm with rfl | rfl <;> rfl

theorem addressFault_of_invalid {cfg : Config} {a : Int} (h : a < 0 ∨ a > cfg.addrMax.val) :
    addressFault cfg a = some (.outOfBounds, a) := by
  rw [addressFault, validAddress_eq_false_iff.2 h]
  rfl

/-- Settles O9, mode by mode. -/
theorem writeOperandFollowsR113 : Obligations.WriteOperandFollowsR113 := by
  refine ⟨fun m v s h0 h1 => ?top, fun m v s hr p hp a ha => ⟨fun hm => ⟨fun ha0 ha1 => ?valid, fun hinv => ?invalid⟩,
    fun hm0 hm2 => ?rejected⟩⟩
  case top =>
    have e := writeOperand_past_at_top (k := 0) (len := s.len) m v (hasRoom_zero_of_top h0 h1) (by simpa using h1)
    rwa [past_zero, faultAfter_zero_at_top] at e
  all_goals subst hp
  case valid =>
    subst ha
    exact writeOperand_of_valid hr (effectiveAddress_of_mode hm _ _) (validAddress_iff.2 ⟨ha0, ha1⟩)
  case invalid =>
    subst ha
    refine writeOperand_of_fault hr ?_
    simp only [destinationFault, effectiveAddress_of_mode hm]
    exact addressFault_of_invalid hinv
  case rejected =>
    refine writeOperand_of_fault hr ?_
    simp only [destinationFault, effectiveAddress_eq_none hm0 hm2]

/-- Settles O10, mode by mode. -/
theorem readOperandResolvesEveryMode : Obligations.ReadOperandResolvesEveryMode := by
  refine ⟨fun m s h0 h1 => ?top, fun m s hr p hp a ha => ⟨fun hm => ?immediate,
    fun hm => ⟨fun ha0 ha1 => ?valid, fun hinv => ?invalid⟩, fun hm => ?rejected⟩⟩
  case top =>
    have e := readOperand_past_at_top (k := 0) (len := s.len) m (hasRoom_zero_of_top h0 h1) (by simpa using h1)
    rwa [past_zero, faultAfter_zero_at_top] at e
  all_goals subst hp
  case immediate =>
    subst hm
    exact readOperand_of_value hr rfl
  case valid =>
    subst ha
    have he := effectiveAddress_of_mode hm s.rb (s.cell s.pc.toInt)
    have hf : sourceFault m (s.cell s.pc.toInt) s = none := by
      simp only [sourceFault, he]
      exact addressFault_eq_none.2 (validAddress_iff.2 ⟨ha0, ha1⟩)
    rw [readOperand_of_value hr hf]
    simp only [sourceValue, extendFor, he]
    rfl
  case invalid =>
    subst ha
    refine readOperand_of_fault hr ?_
    simp only [sourceFault, effectiveAddress_of_mode hm]
    exact addressFault_of_invalid hinv
  case rejected =>
    refine readOperand_of_fault hr ?_
    have h0 : m ≠ 0 := fun e => by simp [e] at hm
    have h1 : m.val ≠ 1 := by omega
    have h2 : m ≠ 2 := fun e => by simp [e] at hm
    simp only [sourceFault, effectiveAddress_eq_none h0 h2, if_neg h1]

/-! ## The parameters of an instruction -/

section
variable {s : State}

/-- `s` with the instruction word consumed. -/
def State.fetched (s : State) : State := s.past 1 (extend s.len s.pc.toInt)

theorem instruction_eq_fetched {body : State → Flow Unit} (h : s.hasRoom 1) :
    instruction body s = (body s.fetched).outcome s := instruction_of_room h

theorem readOperand_one_at_top (m : Digit) (h : s.hasRoom 1) (ht : s.pc.toInt + 1 = s.cfg.addrMax.val) :
    readOperand m s.fetched =
      .raised (s.faultAfter 1 (extend s.len (s.pc.toInt + 1)) (.outOfBounds, s.pc.toInt + 2)) := by
  rw [State.fetched, readOperand_past_at_top m h ht, Nat.cast_one, extend_extend_succ _ h.1, add_assoc]
  rfl

theorem readOperand_one_of_fault {m : Digit} {f : Cause × Int} (h : s.hasRoom 2)
    (hf : sourceFault m (s.param 1) s = some f) :
    readOperand m s.fetched = .raised (s.faultAfter 2 (extend s.len (s.pc.toInt + 1)) f) := by
  rw [State.fetched, readOperand_past_of_fault h hf, Nat.cast_one, extend_extend_succ _ h.1]

theorem readOperand_one_of_value {m : Digit} (h : s.hasRoom 2) (hf : sourceFault m (s.param 1) s = none) :
    readOperand m s.fetched = .done (sourceValue m (s.param 1) s) (s.past 2 (s.lenOne m)) := by
  rw [State.fetched, readOperand_past_of_value h hf, Nat.cast_one, extend_extend_succ _ h.1]
  rfl

theorem readOperand_two_at_top (m1 m2 : Digit) (h : s.hasRoom 2) (ht : s.pc.toInt + 2 = s.cfg.addrMax.val) :
    readOperand m2 (s.past 2 (s.lenOne m1)) =
      .raised (s.faultAfter 2 (extend (s.lenOne m1) (s.pc.toInt + 2)) (.outOfBounds, s.pc.toInt + 3)) := by
  rw [readOperand_past_at_top m2 h ht, add_assoc]
  rfl

theorem readOperand_two_of_fault {m1 m2 : Digit} {f : Cause × Int} (h : s.hasRoom 3)
    (hf : sourceFault m2 (s.param 2) s = some f) :
    readOperand m2 (s.past 2 (s.lenOne m1)) =
      .raised (s.faultAfter 3 (extend (s.lenOne m1) (s.pc.toInt + 2)) f) := readOperand_past_of_fault h hf

theorem readOperand_two_of_value {m1 m2 : Digit} (h : s.hasRoom 3) (hf : sourceFault m2 (s.param 2) s = none) :
    readOperand m2 (s.past 2 (s.lenOne m1)) =
      .done (sourceValue m2 (s.param 2) s) (s.past 3 (s.lenTwo m1 m2)) := readOperand_past_of_value h hf

theorem writeOperand_one_at_top (m : Digit) (v : Word) (h : s.hasRoom 1) (ht : s.pc.toInt + 1 = s.cfg.addrMax.val) :
    writeOperand m v s.fetched =
      .raised (s.faultAfter 1 (extend s.len (s.pc.toInt + 1)) (.outOfBounds, s.pc.toInt + 2)) := by
  rw [State.fetched, writeOperand_past_at_top m v h ht, Nat.cast_one, extend_extend_succ _ h.1, add_assoc]
  rfl

theorem writeOperand_one_of_fault {m : Digit} {v : Word} {f : Cause × Int} (h : s.hasRoom 2)
    (hf : destinationFault m (s.param 1) s = some f) :
    writeOperand m v s.fetched = .raised (s.faultAfter 2 (extend s.len (s.pc.toInt + 1)) f) := by
  rw [State.fetched, writeOperand_past_of_fault h hf, Nat.cast_one, extend_extend_succ _ h.1]

theorem writeOperand_one_of_valid {m : Digit} {v : Word} {d : Int} (h : s.hasRoom 2)
    (he : effectiveAddress m s.rb (s.param 1) = some d) (hv : validAddress s.cfg d = true) :
    writeOperand m v s.fetched =
      .done ()
        { s with
          pc := s.pc + 2
          len := extend (extend s.len (s.pc.toInt + 1)) d
          mem := s.mem.write d.toNat v } := by
  rw [State.fetched, writeOperand_past_of_valid h he hv, Nat.cast_one, extend_extend_succ _ h.1]
  rfl

theorem writeOperand_three_at_top (m : Digit) (v : Word) {len : Nat} (h : s.hasRoom 3)
    (ht : s.pc.toInt + 3 = s.cfg.addrMax.val) :
    writeOperand m v (s.past 3 len) =
      .raised (s.faultAfter 3 (extend len (s.pc.toInt + 3)) (.outOfBounds, s.pc.toInt + 4)) := by
  rw [writeOperand_past_at_top m v h ht, add_assoc]
  rfl

end

/-! ## Format `RRW` -/

/-- An instruction of format `RRW` whose computation answers `r` wherever `result` says so. -/
theorem followsRRW_of_format {i : Digit → Digit → Digit → Instr} {compute : Word → Word → State → Flow Word}
    {result : State → Word → Word → Word → Prop}
    (hexec : ∀ m1 m2 m3 s, exec (i m1 m2 m3) s = instruction (formatRRW compute m1 m2 m3) s)
    (hc : ∀ s a b r, result s a b r → ∀ k len, compute a b (s.past k len) = .done r (s.past k len)) :
    FollowsRRW i result := by
  intro m1 m2 m3 s h2
  have start : exec (i m1 m2 m3) s = (formatRRW compute m1 m2 m3 s.fetched).outcome s := by
    rw [hexec, instruction_eq_fetched (hasRoom_mono h2 (by decide))]
  unfold formatRRW at start
  refine ⟨fun f hf => ?fault1, fun hf ht => ?top2, fun h3 hf1 f hf => ?fault2, fun h3 hf1 hf2 r hr =>
    ⟨fun ht => ?top3, fun h4 => ⟨fun f hf => ?fault3, fun d he hv => ?stored⟩⟩⟩
  case fault1 => rw [start, readOperand_one_of_fault h2 hf]; rfl
  all_goals rw [readOperand_one_of_value h2 (by assumption), Flow.bind_done] at start
  case top2 => rw [start, readOperand_two_at_top m1 m2 h2 ht]; rfl
  case fault2 => rw [start, readOperand_two_of_fault h3 hf]; rfl
  all_goals rw [readOperand_two_of_value h3 hf2, Flow.bind_done, hc _ _ _ _ hr, Flow.bind_done] at start
  case top3 => rw [start, writeOperand_three_at_top m3 r h3 ht]; rfl
  case fault3 => rw [start, writeOperand_past_of_fault h4 hf]; rfl
  case stored => rw [start, writeOperand_past_of_valid h4 he hv]; rfl

/-- Settles O13: a word that denotes the exact sum is what `narrow` answers. -/
theorem addStoresExactSum : Obligations.AddStoresExactSum :=
  followsRRW_of_format (fun _ _ _ _ => rfl) fun _ _ _ _ hr _ _ => narrow_of_exact hr _

/-- Settles O14: a word that denotes the exact product is what `narrow` answers. -/
theorem mulStoresExactProduct : Obligations.MulStoresExactProduct :=
  followsRRW_of_format (fun _ _ _ _ => rfl) fun _ _ _ _ hr _ _ => narrow_of_exact hr _

/-- Rule R172, as the comparisons use it. -/
theorem truthValue_decide {p : Prop} [Decidable p] {r : Word} (h : (p ∧ r = 1) ∨ (¬ p ∧ r = 0)) :
    truthValue (decide p) = r := by
  rcases h with ⟨hp, rfl⟩ | ⟨hp, rfl⟩ <;> simp [truthValue, hp]

/-- Settles O15, with the signed comparison as the computation. -/
theorem ltStoresSignedComparison : Obligations.LtStoresSignedComparison :=
  followsRRW_of_format (fun _ _ _ _ => rfl) fun s _ _ _ hr k len =>
    congrArg (Flow.done · (s.past k len)) (truthValue_decide hr)

/-- Settles O16, with equality as the computation. -/
theorem eqStoresEquality : Obligations.EqStoresEquality :=
  followsRRW_of_format (fun _ _ _ _ => rfl) fun s _ _ _ hr k len =>
    congrArg (Flow.done · (s.past k len)) (truthValue_decide hr)

/-- Settles O17: with `OVF_MODE = wrap`, `narrow` answers the wrapped result. -/
theorem overflowWraps : Obligations.OverflowWraps :=
  ⟨followsRRW_of_format (fun _ _ _ _ => rfl) fun _ _ _ _ hr _ _ => narrow_of_wrapped hr.1 hr.2,
    followsRRW_of_format (fun _ _ _ _ => rfl) fun _ _ _ _ hr _ _ => narrow_of_wrapped hr.1 hr.2⟩

/-- A computation that is refused on the values of the two sources refuses the instruction. -/
theorem formatRRW_of_refused {compute : Word → Word → State → Flow Word} {m1 m2 m3 : Digit} {s : State} {r : Refusal}
    (h3 : s.hasRoom 3) (hf1 : sourceFault m1 (s.param 1) s = none) (hf2 : sourceFault m2 (s.param 2) s = none)
    (hc : compute (sourceValue m1 (s.param 1) s) (sourceValue m2 (s.param 2) s) (s.past 3 (s.lenTwo m1 m2)) =
      .refused r) :
    instruction (formatRRW compute m1 m2 m3) s = .refused r := by
  rw [instruction_eq_fetched (hasRoom_mono h3 (by decide)), formatRRW,
    readOperand_one_of_value (hasRoom_mono h3 (by decide)) hf1, Flow.bind_done, readOperand_two_of_value h3 hf2,
    Flow.bind_done, hc]
  rfl

theorem execArb_of_value {m1 : Digit} {s : State} (h2 : s.hasRoom 2) (hf : sourceFault m1 (s.param 1) s = none) :
    exec (.arb m1) s =
      ((narrow (s.rb.toInt + (sourceValue m1 (s.param 1) s).toInt) (s.past 2 (s.lenOne m1))).bind
        fun r s => .done () { s with rb := r }).outcome s := by
  rw [exec, execArb, instruction_eq_fetched (hasRoom_mono h2 (by decide)), readOperand_one_of_value h2 hf]
  rfl

/-- Settles O18: the sources resolve, and `narrow` refuses before the destination is looked at. -/
theorem overflowIsRefused : Obligations.OverflowIsRefused := by
  refine ⟨fun m1 m2 m3 s h3 hmode hf1 hf2 a b ha hb => ⟨fun hfit => ?add, fun hfit => ?mul⟩,
    fun m1 s h2 hmode hf a ha hfit => ?arb⟩
  case arb =>
    subst ha
    rw [execArb_of_value h2 hf, narrow_of_refuse (s := s.past 2 (s.lenOne m1)) hmode hfit]
    rfl
  all_goals
    subst ha hb
    exact formatRRW_of_refused h3 hf1 hf2 (narrow_of_refuse hmode hfit)

/-- Settles O21: `narrow` answers the exact or the wrapped sum, the operand having been read under the old `rb`. -/
theorem arbAddsToRelativeBase : Obligations.ArbAddsToRelativeBase := by
  refine fun m1 s h2 => ⟨fun f hf => ?fault, fun hf r sum hsum hr => ?sum⟩
  case fault =>
    rw [exec, execArb, instruction_eq_fetched (hasRoom_mono h2 (by decide)), readOperand_one_of_fault h2 hf]
    rfl
  case sum =>
    subst hsum
    have hn : narrow (s.rb.toInt + (sourceValue m1 (s.param 1) s).toInt) (s.past 2 (s.lenOne m1)) =
        .done r (s.past 2 (s.lenOne m1)) := by
      rcases hr with hr | ⟨hmode, hr⟩
      · exact narrow_of_exact hr _
      · exact narrow_of_wrapped hmode hr
    rw [execArb_of_value h2 hf, hn]
    rfl

/-! ## Format `RR` -/

/-- A jump of format `RR` that is taken exactly where `taken` says so. -/
theorem followsRR_of_format {i : Digit → Digit → Instr} {test : Word → Bool} {taken : Word → Prop}
    (hexec : ∀ m1 m2 s, exec (i m1 m2) s = instruction (formatRR test m1 m2) s)
    (ht : ∀ a, test a = true ↔ taken a) : FollowsRR i taken := by
  intro m1 m2 s h2
  have start : exec (i m1 m2) s = (formatRR test m1 m2 s.fetched).outcome s := by
    rw [hexec, instruction_eq_fetched (hasRoom_mono h2 (by decide))]
  unfold formatRR at start
  refine ⟨fun f hf => ?fault1, fun hf ht => ?top2, fun h3 hf1 f hf => ?fault2, fun h3 hf1 hf2 =>
    ⟨fun hn => ?fallsThrough, fun hy b hb => ⟨fun hv => ?jumps, fun hv => ?badTarget⟩⟩⟩
  case fault1 => rw [start, readOperand_one_of_fault h2 hf]; rfl
  all_goals rw [readOperand_one_of_value h2 (by assumption), Flow.bind_done] at start
  case top2 => rw [start, readOperand_two_at_top m1 m2 h2 ht]; rfl
  case fault2 => rw [start, readOperand_two_of_fault h3 hf]; rfl
  all_goals rw [readOperand_two_of_value h3 hf2, Flow.bind_done] at start
  case fallsThrough => rw [start, if_neg fun e => hn ((ht _).1 e)]; rfl
  all_goals rw [if_pos ((ht _).2 hy), ← hb] at start
  case jumps => rw [start, jumpTo_of_valid (s := s.past 3 _) hv]; rfl
  case badTarget => rw [start, jumpTo_of_invalid (s := s.past 3 _) hv]; rfl

theorem testsTrue_iff {v : Word} : testsTrue v = true ↔ v.toInt ≠ 0 := by simp [testsTrue]

/-- Settles O19: JT is the format with `testsTrue`. -/
theorem jtJumpsIfNotZero : Obligations.JtJumpsIfNotZero :=
  followsRR_of_format (fun _ _ _ => rfl) fun _ => testsTrue_iff

/-- Settles O20: JF is the format with the negation of `testsTrue`. -/
theorem jfJumpsIfZero : Obligations.JfJumpsIfZero :=
  followsRR_of_format (fun _ _ _ => rfl) fun a => by simp [testsTrue]

end Sys2Proof.Machine

/-!
# Ports, the halt and the step

IN and OUT run once per provider answer, HALT, and what a step of a running engine with an empty agenda is. The
statements about held instructions are two such steps with a peer's move before them.
-/

namespace Sys2Proof.Machine

/-! ## IN -/

theorem execInp_of_recv {m1 : Digit} {s : State} (h : s.hasRoom 1) :
    exec (.inp m1) s = ((inRecv s.fetched).bind fun v t => writeOperand m1 v t).outcome s := by
  rw [exec, execInp, instruction_eq_fetched h]

/-- An IN whose provider has an item `v`, `u` being `s` without it: the parameter's faults, then the store. -/
theorem execInp_of_took {m1 : Digit} {s u : State} {v : Word} (hu : s.TookInput u v) (h1 : s.hasRoom 1) :
    (s.pc.toInt + 1 = s.cfg.addrMax.val →
      exec (.inp m1) s =
        .next (u.faultAfter 1 (extend s.len (s.pc.toInt + 1)) (.outOfBounds, s.pc.toInt + 2))) ∧
    (s.hasRoom 2 → ∀ f, destinationFault m1 (s.param 1) s = some f →
      exec (.inp m1) s = .next (u.faultAfter 2 (extend s.len (s.pc.toInt + 1)) f)) ∧
    (s.hasRoom 2 → ∀ d, effectiveAddress m1 s.rb (s.param 1) = some d → validAddress s.cfg d = true →
      exec (.inp m1) s =
        .next { u with
          pc := s.pc + 2
          len := extend (extend s.len (s.pc.toInt + 1)) d
          mem := s.mem.write d.toNat v }) := by
  have hrecv : inRecv s.fetched = .done v u.fetched := by
    rcases hu with ⟨hb, rest, hq, rfl⟩ | ⟨hb, rest, hq, rfl⟩ <;>
      simp [inRecv, channelRecv, consoleRecv, State.fetched, State.past, hb, hq]
  have start : exec (.inp m1) s = (writeOperand m1 v u.fetched).outcome s := by
    rw [execInp_of_recv h1, hrecv, Flow.bind_done]
  obtain ⟨inq, con, rfl⟩ : ∃ inq con, u = { s with inQueue := inq, consoleIn := con } := by
    rcases hu with ⟨-, rest, -, rfl⟩ | ⟨-, rest, -, rfl⟩ <;> exact ⟨_, _, rfl⟩
  refine ⟨fun ht => ?top, fun h2 f hf => ?fault, fun h2 d he hv => ?stored⟩
  case top =>
    rw [start, writeOperand_one_at_top (s := { s with inQueue := inq, consoleIn := con }) m1 v h1 ht]
    rfl
  case fault =>
    rw [start, writeOperand_one_of_fault (s := { s with inQueue := inq, consoleIn := con }) h2 hf]
    rfl
  case stored =>
    rw [start, writeOperand_one_of_valid (s := { s with inQueue := inq, consoleIn := con }) h2 he hv]
    rfl

/-- An IN whose port is closed faults with InputError, its word consumed. -/
theorem execInp_of_closed {m1 : Digit} {s : State} (h1 : s.hasRoom 1)
    (hr : inRecv s.fetched = .raised (raise .inputError none s.fetched)) :
    exec (.inp m1) s =
      .next { s with
        pc := s.pc + 1
        len := extend s.len s.pc.toInt
        run := .faulted
        cause := some .inputError
        info := none } := by
  rw [execInp_of_recv h1, hr]
  rfl

theorem execInp_of_held {m1 : Digit} {s : State} (h1 : s.hasRoom 1) (hr : inRecv s.fetched = .held) :
    exec (.inp m1) s = .next s := by
  rw [execInp_of_recv h1, hr]
  rfl

/-- Settles O23, by what the channel answers. -/
theorem inTakesOldestQueuedItem : Obligations.InTakesOldestQueuedItem := by
  refine fun m1 s hb => ⟨fun v rest h1 hq => execInp_of_took (.inl ⟨hb, rest, hq, rfl⟩) h1,
    fun h1 hq => ⟨fun hs => execInp_of_closed h1 ?closed, fun hs => execInp_of_held h1 ?held⟩⟩
  all_goals simp [inRecv, channelRecv, State.fetched, State.past, hb, hq, hs]

/-- Settles O24, by what the console answers. -/
theorem inTakesConsoleLine : Obligations.InTakesConsoleLine := by
  refine fun m1 s hb => ⟨fun v rest h1 hq => execInp_of_took (.inr ⟨hb, rest, hq, rfl⟩) h1,
    fun rest h1 hq => execInp_of_closed h1 ?closed, fun h1 hq => execInp_of_held h1 ?held⟩
  all_goals simp [inRecv, consoleRecv, State.fetched, State.past, hb, hq]

/-! ## OUT -/

theorem execOut_of_fault {m1 : Digit} {s : State} (h2 : s.hasRoom 2) {f : Cause × Int}
    (hf : sourceFault m1 (s.param 1) s = some f) :
    exec (.out m1) s = .next (s.faultAfter 2 (extend s.len (s.pc.toInt + 1)) f) := by
  rw [exec, execOut, instruction_eq_fetched (hasRoom_mono h2 (by decide)), readOperand_one_of_fault h2 hf]
  rfl

theorem execOut_of_value {m1 : Digit} {s : State} (h2 : s.hasRoom 2) (hf : sourceFault m1 (s.param 1) s = none) :
    exec (.out m1) s = (outSend (sourceValue m1 (s.param 1) s) (s.past 2 (s.lenOne m1))).outcome s := by
  rw [exec, execOut, instruction_eq_fetched (hasRoom_mono h2 (by decide)), readOperand_one_of_value h2 hf]
  rfl

/-- Settles O25, by what the channel answers. -/
theorem outAppendsToChannel : Obligations.OutAppendsToChannel := by
  refine fun m1 s hb h2 => ⟨fun f hf => execOut_of_fault h2 hf, fun hf =>
    ⟨fun hr => ?closed, fun hr => ⟨fun hc => ?sent, fun hc => ?held⟩⟩⟩
  all_goals
    rw [execOut_of_value h2 hf]
    simp [outSend, channelSend, State.past, raise, *]

/-- Settles O26: the console always takes the value. -/
theorem outPrintsOnConsole : Obligations.OutPrintsOnConsole := by
  refine fun m1 s hb h2 => ⟨fun f hf => execOut_of_fault h2 hf, fun hf => ?_⟩
  rw [execOut_of_value h2 hf]
  simp [outSend, consoleSend, State.past, hb]

/-! ## The step of a running engine -/

theorem step_of_running {s : State} (hr : s.run = .running) (ha : s.agenda = []) : step s = engineCycle s := by
  simp only [step, ha, engineTurn, hr]

/-- Every instruction begins with the immediate read of its word (rule R110). -/
theorem exec_of_nextCell_raised {s t : State} (h : nextCell s = .raised t) (i : Instr) : exec i s = .next t := by
  have hbody : ∀ body, instruction body s = .next t := fun body => by rw [instruction, h]; rfl
  cases i <;> exact hbody _

/-- The cycle's own fetch and the instruction's are the same immediate read. -/
theorem engineCycle_of_decoded {s : State} {i : Instr} (hv : validAddress s.cfg s.pc.toInt = true)
    (hd : decode (s.cell s.pc.toInt) = .ok i) : engineCycle s = exec i s := by
  rw [engineCycle]
  rcases nextCell_cases s with ⟨-, e⟩ | ⟨-, -, e⟩ | ⟨hinv, -⟩
  · simp only [e, hd]
  · simp only [e, exec_of_nextCell_raised e]
  · exact absurd hv (by simp [hinv])

/-- Settles O31: a step of a running engine with nothing on the agenda is a cycle. -/
theorem stepRunsDecodedInstruction : Obligations.StepRunsDecodedInstruction := by
  intro s i hr ha hv hd
  rw [step_of_running hr ha, engineCycle_of_decoded hv hd]

/-- Settles O35: with nothing on the agenda a step is a turn of the engine, which has no cycle unless Running. -/
theorem engineIdlesUnlessRunning : Obligations.EngineIdlesUnlessRunning := by
  intro s ha hr
  rw [step, ha]
  exact engineTurn_of_not_running hr

/-- Settles O32: `decode` rejects such a word, and the cycle raises with the word consumed. -/
theorem illegalOpcodesFaultAtDispatch : Obligations.IllegalOpcodesFaultAtDispatch := by
  intro s w hr ha h1 hw hop
  have hstep {d : Int} (hd : decode w = .error (.unrecognizedOpcode d)) :
      step s = .next (s.faultAfter 1 (extend s.len s.pc.toInt) (.unrecognizedOpcode, d)) := by
    rw [step_of_running hr ha, engineCycle, nextCell_of_room h1]
    simp only [← hw, hd]
    rfl
  by_cases hneg : w.toInt < 0
  · exact ⟨_, hstep (negativeWordsAreNoInstruction w hneg), fun h => absurd h (by omega), fun _ => rfl⟩
  · exact ⟨_, hstep (decode_eq_error_iff.2 (.inr ⟨by omega, hop.resolve_left hneg, rfl⟩)), fun _ => rfl,
      fun h => absurd h hneg⟩

theorem nextCell_at_top_eq_faultAfter {s : State} (h0 : 0 ≤ s.pc.toInt) (h1 : s.pc.toInt = s.cfg.addrMax.val) :
    nextCell s = .raised (s.faultAfter 0 (extend s.len s.pc.toInt) (.outOfBounds, s.pc.toInt + 1)) := by
  rw [nextCell_at_top h0 h1]
  simp [raise, State.faultAfter]

/-- An instruction that begins with a source operand faults when its first parameter is at the top. -/
theorem instruction_operand_at_top {m : Digit} {rest : Word → State → Flow Unit} {s : State} (h0 : 0 ≤ s.pc.toInt)
    (ht : s.pc.toInt + 1 = s.cfg.addrMax.val) :
    instruction (fun t => (readOperand m t).bind rest) s =
      .next (s.faultAfter 1 (extend s.len (s.pc.toInt + 1)) (.outOfBounds, s.pc.toInt + 2)) := by
  have h1 : s.hasRoom 1 := ⟨h0, ht.le⟩
  rw [instruction_eq_fetched h1, readOperand_one_at_top m h1 ht]
  rfl

/-- Settles O33: the fetch faults at the top, and every instruction with a parameter but IN begins with a source. -/
theorem topOfAddressSpaceFaults : Obligations.TopOfAddressSpaceFaults := by
  refine ⟨fun s hr ha h0 h1 => ?fetch, fun i s hm hi h0 ht => ?operand⟩
  case fetch => rw [step_of_running hr ha, engineCycle, nextCell_at_top_eq_faultAfter h0 h1]
  case operand =>
    cases i with
    | halt => exact absurd rfl hm
    | inp m => exact absurd rfl (hi m)
    | add | mul | lt | eq | jt | jf | arb | out => exact instruction_operand_at_top h0 ht

/-- Settles O34: the fetch reads what `Memory.write` has stored, and the store has checked the address. -/
theorem storeIsSeenByNextFetch : Obligations.StoreIsSeenByNextFetch := by
  intro a v i s t hwf hw hr ha hpc hd
  cases hv : validAddress s.cfg a with
  | false =>
    rw [memWrite_of_invalid hv] at hw
    cases hw
  | true =>
    rw [memWrite_of_valid hv] at hw
    cases hw
    refine stepRunsDecodedInstruction _ _ hr ha (by rw [hpc]; exact hv) ?_
    rw [hpc, State.cell, Memory.read_write_self hwf]
    exact hd

/-! ## HALT -/

/-- Settles O22, clause by clause; the last two are `stoppedEngineStaysStopped` and `halted_of_step`. -/
theorem haltFollowsR185 : Obligations.HaltFollowsR185 := by
  refine ⟨fun w h0 h99 => ?decodes, fun s h1 => ?halts, fun s h0 h1 => ?top, fun s t hs h => ?absorbs,
    fun s hs => ?result, fun s t h ht hs => halted_of_step h ht hs⟩
  case decodes => exact (decodeSelectsByUsedDigits w .halt).2 ⟨h0, h99, nofun⟩
  case halts =>
    rw [exec, execHalt, instruction_eq_fetched h1]
    rfl
  case top => exact exec_of_nextCell_raised (nextCell_at_top_eq_faultAfter h0 h1) .halt
  case absorbs =>
    obtain ⟨hrun, -, -, hpc, hrb⟩ := stoppedEngineStaysStopped s t (.inl hs) h
    exact ⟨hrun.trans hs, hpc, hrb⟩
  case result => simp only [State.runResult, hs]

/-! ## Held instructions, and what lifts the hold -/

theorem validAddress_of_hasRoom {s : State} {n : Nat} (h : s.hasRoom n) : validAddress s.cfg s.pc.toInt = true := by
  obtain ⟨h0, h1⟩ := h
  exact validAddress_iff.2 ⟨h0, by omega⟩

/-- A step with an empty agenda at a decoded instruction. -/
theorem step_of_decoded {s : State} {i : Instr} {n : Nat} (hr : s.run = .running) (ha : s.agenda = [])
    (hn : s.hasRoom n) (hd : decode (s.cell s.pc.toInt) = .ok i) : step s = exec i s :=
  stepRunsDecodedInstruction s i hr ha (validAddress_of_hasRoom hn) hd

/-- Rule R150 for IN on the bound port: an item, or the loss of the last sender, lifts the hold. -/
theorem peer_lifts_hold_on_bound_in {m1 : Digit} {d : Int} {v : Word} {s : State} (hr : s.run = .running)
    (h2 : s.hasRoom 2) (hd : decode (s.cell s.pc.toInt) = .ok (.inp m1))
    (he : effectiveAddress m1 s.rb (s.param 1) = some d) (hv : validAddress s.cfg d = true) (hb : s.inBound = true)
    (hq : s.inQueue = []) (hs : s.inSenders = 1) (hcap : s.cfg.inCap.hasRoom 0 = true) :
    step { s with agenda := [] } = .next { s with agenda := [] } ∧
    (∃ u, step { s with agenda := [.environment (.send v)] } = .next u ∧
      step u = .next { s with
        agenda := []
        pc := s.pc + 2
        len := extend (extend s.len (s.pc.toInt + 1)) d
        mem := s.mem.write d.toNat v }) ∧
    (∃ u, step { s with agenda := [.environment .dropSender] } = .next u ∧
      step u = .next { s with
        agenda := []
        pc := s.pc + 1
        len := extend s.len s.pc.toInt
        run := .faulted
        cause := some .inputError
        info := none
        inSenders := 0 }) := by
  have h1 : s.hasRoom 1 := hasRoom_mono h2 (by decide)
  have hstep (q : List Word) (k : Nat) : step { s with agenda := [], inQueue := q, inSenders := k } =
      exec (.inp m1) { s with agenda := [], inQueue := q, inSenders := k } := step_of_decoded (by exact hr) rfl h1 hd
  refine ⟨?held, ⟨{ s with agenda := [], inQueue := [v] }, ?sends, ?stores⟩,
    ⟨{ s with agenda := [], inSenders := 0 }, ?drops, ?fails⟩⟩
  case held =>
    obtain ⟨-, hempty⟩ := inTakesOldestQueuedItem m1 { s with agenda := [] } hb
    exact (hstep _ _).trans ((hempty h1 hq).2 (by simp [hs]))
  case sends =>
    rw [step_of_environment rfl]
    simp [environmentMove, hq, hs, hcap]
  case stores =>
    obtain ⟨htakes, -⟩ := inTakesOldestQueuedItem m1 { s with agenda := [], inQueue := [v] } hb
    obtain ⟨-, -, hstored⟩ := htakes v [] h1 rfl
    rw [hstep, hstored h2 d he hv, ← hq]
  case drops =>
    rw [step_of_environment rfl]
    simp [environmentMove, hs]
  case fails =>
    obtain ⟨-, hempty⟩ := inTakesOldestQueuedItem m1 { s with agenda := [], inSenders := 0 } hb
    exact (hstep _ _).trans ((hempty h1 hq).1 rfl)

/-- Rules R146, R150 for IN on the unbound port: a console line, an integer or a failure, lifts the hold. -/
theorem console_lifts_hold_on_unbound_in {m1 : Digit} {d : Int} {v : Word} {s : State} (hr : s.run = .running)
    (h2 : s.hasRoom 2) (hd : decode (s.cell s.pc.toInt) = .ok (.inp m1))
    (he : effectiveAddress m1 s.rb (s.param 1) = some d) (hv : validAddress s.cfg d = true) (hb : s.inBound = false)
    (hq : s.consoleIn = []) :
    step { s with agenda := [] } = .next { s with agenda := [] } ∧
    (∃ u, step { s with agenda := [.environment (.consoleLine (.value v))] } = .next u ∧
      step u = .next { s with
        agenda := []
        pc := s.pc + 2
        len := extend (extend s.len (s.pc.toInt + 1)) d
        mem := s.mem.write d.toNat v }) ∧
    (∃ u, step { s with agenda := [.environment (.consoleLine .failure)] } = .next u ∧
      step u = .next { s with
        agenda := []
        pc := s.pc + 1
        len := extend s.len s.pc.toInt
        run := .faulted
        cause := some .inputError
        info := none
        consoleIn := [.failure] }) := by
  have h1 : s.hasRoom 1 := hasRoom_mono h2 (by decide)
  have hstep (ls : List ConsoleLine) : step { s with agenda := [], consoleIn := ls } =
      exec (.inp m1) { s with agenda := [], consoleIn := ls } := step_of_decoded (by exact hr) rfl h1 hd
  have hline (l : ConsoleLine) : step { s with agenda := [.environment (.consoleLine l)] } =
      .next { s with agenda := [], consoleIn := [l] } := by
    rw [step_of_environment rfl]
    simp [environmentMove, hq]
  refine ⟨?held, ⟨_, hline (.value v), ?stores⟩, ⟨_, hline .failure, ?fails⟩⟩
  case held =>
    obtain ⟨-, -, hempty⟩ := inTakesConsoleLine m1 { s with agenda := [] } hb
    exact (hstep _).trans (hempty h1 hq)
  case stores =>
    obtain ⟨htakes, -⟩ := inTakesConsoleLine m1 { s with agenda := [], consoleIn := [.value v] } hb
    obtain ⟨-, -, hstored⟩ := htakes v [] h1 rfl
    rw [hstep, hstored h2 d he hv, ← hq]
  case fails =>
    obtain ⟨-, hfails, -⟩ := inTakesConsoleLine m1 { s with agenda := [], consoleIn := [.failure] } hb
    exact (hstep _).trans (hfails [] h1 rfl)

/-- Settles O51, provider by provider. -/
theorem peerLiftsHoldOnIn : Obligations.PeerLiftsHoldOnIn := by
  intro m1 d v s hr h2 hd he hv stored failed hstored hfailed
  subst hstored hfailed
  exact ⟨peer_lifts_hold_on_bound_in hr h2 hd he hv, console_lifts_hold_on_unbound_in hr h2 hd he hv⟩

/-- A step of a running engine at an OUT on the bound port, in the three cases of `outAppendsToChannel`. -/
theorem step_out_of_channel {m1 : Digit} {s : State} (hr : s.run = .running) (ha : s.agenda = [])
    (hb : s.outBound = true) (h2 : s.hasRoom 2) (hd : decode (s.cell s.pc.toInt) = .ok (.out m1))
    (hf : sourceFault m1 (s.param 1) s = none) :
    (s.outReceiver = false →
      step s = .next { s with
        pc := s.pc + 2
        len := s.lenOne m1
        run := .faulted
        cause := some .outputError
        info := none }) ∧
    (s.outReceiver = true →
      (s.cfg.outCap.hasRoom s.outQueue.length = true →
        step s = .next { s with
          pc := s.pc + 2
          len := s.lenOne m1
          outQueue := s.outQueue ++ [sourceValue m1 (s.param 1) s] }) ∧
      (s.cfg.outCap.hasRoom s.outQueue.length = false → step s = .next s)) := by
  rw [step_of_decoded hr ha h2 hd]
  exact (outAppendsToChannel m1 s hb h2).2 hf

/-- Settles O55: a full queue, the queue with an item less, and the queue without a receiver. -/
theorem peerLiftsHoldOnOut : Obligations.PeerLiftsHoldOnOut := by
  intro m1 x queue s hr hb hrecv hq hcap h2 hd hf
  refine ⟨?held, ⟨{ s with agenda := [], outQueue := queue }, ?receives, ?sends⟩,
    ⟨{ s with agenda := [], outReceiver := false }, ?drops, ?fails⟩⟩
  case held =>
    obtain ⟨-, hlive⟩ := step_out_of_channel (s := { s with agenda := [] }) hr rfl hb h2 hd hf
    exact (hlive hrecv).2 (by simp [hcap, hq, Capacity.hasRoom])
  case receives =>
    rw [step_of_environment rfl]
    simp [environmentMove, hrecv, hq]
  case sends =>
    obtain ⟨-, hlive⟩ := step_out_of_channel (s := { s with agenda := [], outQueue := queue }) hr rfl hb h2 hd hf
    exact (hlive hrecv).1 (by simp [hcap, Capacity.hasRoom])
  case drops =>
    rw [step_of_environment rfl]
    simp [environmentMove, hrecv]
  case fails =>
    exact (step_out_of_channel (s := { s with agenda := [], outReceiver := false }) hr rfl hb h2 hd hf).1 rfl

theorem step_of_engine {s : State} {rest : List Move} (ha : s.agenda = .engine :: rest) (hr : s.run = .running) :
    step s = engineCycle { s with agenda := rest } := by
  simp only [step, ha, move, engineTurn, hr]

/-- Settles O57: the foreign item fills the queue, and the engine's goes behind it once one has been removed. -/
theorem foreignItemsFillTheOutputChannel : Obligations.ForeignItemsFillTheOutputChannel := by
  intro m1 x v queue s hr hb hrecv hsend hq hcap h2 hd hf
  refine ⟨{ s with agenda := [.engine, .environment .receive], outQueue := s.outQueue ++ [v] },
    { s with agenda := [], outQueue := queue ++ [v] }, ?fills, ?holds, ?receives, ?sends⟩
  case fills =>
    rw [step_of_environment rfl]
    simp [environmentMove, State.foreignOutSender, hsend, hrecv, hq, hcap, Capacity.hasRoom]
  case holds =>
    have hpc := validAddress_of_hasRoom h2
    obtain ⟨-, hout⟩ := outAppendsToChannel m1
      { s with agenda := [.environment .receive], outQueue := s.outQueue ++ [v] } hb h2
    have hheld := ((hout hf).2 hrecv).2 (by simp [hcap, hq, Capacity.hasRoom])
    exact (step_of_engine rfl (by exact hr)).trans ((engineCycle_of_decoded (by exact hpc) (by exact hd)).trans hheld)
  case receives =>
    rw [step_of_environment rfl]
    simp [environmentMove, hrecv, hq]
  case sends =>
    obtain ⟨-, hlive⟩ :=
      step_out_of_channel (s := { s with agenda := [], outQueue := queue ++ [v] }) hr rfl hb h2 hd hf
    have hsent := (hlive hrecv).1 (by simp [hcap, Capacity.hasRoom])
    rw [List.append_assoc] at hsent
    exact hsent

end Sys2Proof.Machine

/-!
# Load and the program text

The loader against its grammar. The grammar is an equivalence first (O54), from what each loader function answers in
Laws/Loader; that the decimal text of a word is in the grammar is a fact about `Nat.toDigits`.
-/

namespace Sys2Proof.Machine

/-- Settles O52: the placed cells read back, and every other field is at its reset value. -/
theorem loadFollowsR34 : Obligations.LoadFollowsR34 := by
  intro cfg image _ _ s hs
  subst hs
  refine ⟨rfl, rfl, fun a ha => ?inside, fun a ha => ?past, rfl, rfl, rfl, rfl, rfl, rfl, rfl⟩
  case inside =>
    rw [load_mem, read_placeCells image rfl, if_pos (by omega), Nat.sub_zero, List.getD_eq_getElem]
  case past =>
    rw [load_mem, read_placeCells image rfl, if_neg (by omega)]
    rfl

/-! ## The grammar -/

/-- A character of joined fields is a comma, or one of a field. -/
theorem mem_intercalate_comma {fields : List (List Char)} {c : Char} (h : c ∈ [','].intercalate fields) :
    c = ',' ∨ ∃ f ∈ fields, c ∈ f := by
  induction fields with
  | nil => simp at h
  | cons f fs ih =>
    cases fs with
    | nil => exact .inr ⟨f, by simp, by simpa using h⟩
    | cons g gs =>
      rw [List.intercalate_cons_cons, List.mem_append, List.mem_append, List.mem_singleton] at h
      rcases h with (h | h) | h
      · exact .inr ⟨f, by simp, h⟩
      · exact .inl h
      · rcases ih h with h | ⟨x, hx, hc⟩
        · exact .inl h
        · exact .inr ⟨x, List.mem_cons_of_mem _ hx, hc⟩

section
variable {fields : List (List Char)} {image : List Word} (h : List.Forall₂ IntegerText fields image)
include h

theorem chars_of_integerTexts : ∀ f ∈ fields, ∀ c ∈ f, c ≠ ',' ∧ c ≠ '\n' ∧ c ≠ '\r' :=
  ((List.forall₂_and_left _ _).1 (h.imp fun _ _ hv => ⟨hv.chars.2, hv⟩)).1

/-- Integers joined by commas have no terminator in them. -/
theorem no_terminator_in_fields : '\n' ∉ [','].intercalate fields ∧ '\r' ∉ [','].intercalate fields := by
  refine ⟨fun hc => ?lf, fun hc => ?cr⟩
  case lf =>
    obtain e | ⟨f, hf, hc⟩ := mem_intercalate_comma hc
    · exact absurd e (by decide)
    · obtain ⟨-, hlf, -⟩ := chars_of_integerTexts h f hf _ hc
      exact hlf rfl
  case cr =>
    obtain e | ⟨f, hf, hc⟩ := mem_intercalate_comma hc
    · exact absurd e (by decide)
    · obtain ⟨-, -, hcr⟩ := chars_of_integerTexts h f hf _ hc
      exact hcr rfl

/-- Integers joined by commas are read back word by word. -/
theorem parseFields_intercalate (hne : fields ≠ []) :
    parseFields (splitCommas ([','].intercalate fields)) = some image := by
  rw [splitCommas_intercalate hne fun f hf hc => (chars_of_integerTexts h f hf _ hc).1 rfl]
  exact parseFields_iff.2 h

/-- Whichever terminator of the grammar stands behind them, it is what is taken away. -/
theorem stripTerminator_fields {cfg : Config} {terminator : List Char}
    (ht : terminator = [] ∨ terminator = ['\n'] ∨ (cfg.crlfOk = true ∧ terminator = ['\r', '\n'])) :
    stripTerminator cfg ([','].intercalate fields ++ terminator) = [','].intercalate fields := by
  obtain ⟨hlf, hcr⟩ := no_terminator_in_fields h
  rcases ht with rfl | rfl | ⟨hc, rfl⟩
  · rw [List.append_nil]
    exact stripTerminator_of_no_lf hlf
  · exact stripTerminator_lf hcr
  · rw [stripTerminator_crlf, if_pos hc]

end

/-- What an accepted text is, without its terminator. -/
theorem fields_of_parseProgram {cfg : Config} {text : List Char} {image : List Word}
    (h : parseProgram cfg text = .ok image) :
    ∃ fields, stripTerminator cfg text = [','].intercalate fields ∧ fields ≠ [] ∧
      List.Forall₂ IntegerText fields image ∧ image.length ≤ cfg.addrMax.val + 1 := by
  obtain ⟨hfields, hlen⟩ := (parseProgram_of_strip rfl).1 h
  exact ⟨splitCommas (stripTerminator cfg text), (splitCommas_spec _).1.symm, splitCommas_ne_nil _,
    parseFields_iff.1 hfields, hlen⟩

/-- Settles O54: the terminator is what `stripTerminator` takes away, and the fields are those between the commas. -/
theorem loaderAcceptsExactlyTheGrammar : Obligations.LoaderAcceptsExactlyTheGrammar := by
  intro cfg text image
  constructor
  · intro h
    obtain ⟨fields, hbody, hne, hwords, hlen⟩ := fields_of_parseProgram h
    obtain ⟨terminator, htext, hterm⟩ := stripTerminator_spec cfg text
    exact ⟨fields, terminator, by rw [← hbody]; exact htext, hterm, hne, hwords, hlen⟩
  · rintro ⟨fields, terminator, rfl, hterm, hne, hwords, hlen⟩
    exact (parseProgram_of_strip (stripTerminator_fields hwords hterm)).2 ⟨parseFields_intercalate hwords hne, hlen⟩

/-! ## The decimal text of a word -/

theorem digitChar_eq_charOfDigit (d : Digit) : Nat.digitChar d.val = charOfDigit d := by revert d; decide

/-- Lean's decimal digits of a number are digits that denote it. -/
theorem toDigits_eq_map (n : Nat) :
    ∃ ds : List Digit, ds ≠ [] ∧ Nat.toDigits 10 n = ds.map charOfDigit ∧ digitsValue ds = n := by
  induction n using Nat.strongRecOn with
  | ind n ih =>
    rw [Nat.toDigits_eq_if (by decide)]
    split
    · rename_i hn
      exact ⟨[⟨n, hn⟩], by simp, congrArg (fun c => [c]) (digitChar_eq_charOfDigit ⟨n, hn⟩),
        by simp [digitsValue]⟩
    · obtain ⟨ds, hne, hds, hv⟩ := ih (n / 10) (by omega)
      have hd : n % 10 < 10 := Nat.mod_lt _ (by decide)
      refine ⟨ds ++ [⟨n % 10, hd⟩], by simp, ?_, ?_⟩
      · rw [hds, List.map_append, digitChar_eq_charOfDigit ⟨n % 10, hd⟩]
        rfl
      · rw [digitsValue] at hv
        rw [digitsValue, List.foldl_append, hv]
        simp only [List.foldl_cons, List.foldl_nil]
        omega

theorem integerText_decimalText (v : Word) : IntegerText (decimalText v) v := by
  unfold decimalText
  by_cases hv : 0 ≤ v.toInt
  · obtain ⟨ds, hne, hds, hval⟩ := toDigits_eq_map v.toInt.toNat
    refine ⟨false, ds, hne, ?_, ?_⟩
    · show v.toInt.repr.toList = _
      rw [Int.repr_eq_if, if_pos hv, Nat.toList_repr, hds]
      rfl
    · rw [if_neg (by decide), hval]
      omega
  · obtain ⟨ds, hne, hds, hval⟩ := toDigits_eq_map (-v.toInt).toNat
    refine ⟨true, ds, hne, ?_, ?_⟩
    · show v.toInt.repr.toList = _
      rw [Int.repr_eq_if, if_neg hv, String.toList_append, Nat.toList_repr, hds]
      rfl
    · rw [if_pos rfl, hval]
      omega

theorem integerTexts_of_image (image : List Word) : List.Forall₂ IntegerText (image.map decimalText) image :=
  List.forall₂_map_left_iff.2 (List.forall₂_same.2 fun v _ => integerText_decimalText v)

/-! ## The text of an image -/

/-- There is one error, so rejection is not being accepted with any image. -/
theorem parseProgram_eq_error {cfg : Config} {text : List Char}
    (h : ∀ image, parseProgram cfg text ≠ .ok image) : parseProgram cfg text = .error .parseError := by
  cases hp : parseProgram cfg text with
  | ok image => exact absurd hp (h image)
  | error e => rfl

theorem parseProgram_imageText {cfg : Config} {image : List Word} {terminator : List Char} (hne : image ≠ [])
    (hlen : image.length ≤ cfg.addrMax.val + 1)
    (ht : terminator = [] ∨ terminator = ['\n'] ∨ (cfg.crlfOk = true ∧ terminator = ['\r', '\n'])) :
    parseProgram cfg (imageText image ++ terminator) = .ok image :=
  (loaderAcceptsExactlyTheGrammar cfg _ image).2
    ⟨image.map decimalText, terminator, rfl, ht, by simpa using hne, integerTexts_of_image image, hlen⟩

/-- Without `CRLF_OK` a CR stays in the last field, which is then no integer. -/
theorem parseProgram_crlf_rejected {cfg : Config} (text : List Char) (hc : cfg.crlfOk = false) :
    parseProgram cfg (text ++ ['\r', '\n']) = .error .parseError := by
  refine parseProgram_eq_error fun image h => ?_
  obtain ⟨fields, hbody, -, hwords, -⟩ := fields_of_parseProgram h
  rw [stripTerminator_crlf, hc] at hbody
  exact (no_terminator_in_fields hwords).2 (by rw [← hbody]; simp)

theorem parseProgram_too_long {cfg : Config} {image : List Word} (h : cfg.addrMax.val + 1 < image.length) :
    parseProgram cfg (imageText image) = .error .parseError := by
  have hwords := integerTexts_of_image image
  have hne : image.map decimalText ≠ [] := by
    intro e
    rw [List.map_eq_nil_iff] at e
    simp [e] at h
  refine parseProgram_eq_error fun image' h' => ?_
  have hstrip : stripTerminator cfg (imageText image) = imageText image :=
    stripTerminator_of_no_lf (no_terminator_in_fields hwords).1
  obtain ⟨hfields, hlen⟩ := (parseProgram_of_strip hstrip).1 h'
  rw [imageText, parseFields_intercalate hwords hne, Option.some.injEq] at hfields
  subst hfields
  omega

/-- Settles O53, from the grammar and the decimal text of a word. -/
theorem loaderAcceptsFittingImages : Obligations.LoaderAcceptsFittingImages := by
  refine ⟨fun cfg image hne hlen => ?fitting, fun cfg image h => parseProgram_too_long h,
    fun cfg text image h => ?accepted⟩
  case fitting =>
    have hplain : parseProgram cfg (imageText image) = .ok image := by
      simpa using parseProgram_imageText hne hlen (.inl rfl)
    refine ⟨hplain, parseProgram_imageText hne hlen (.inr (.inl rfl)), ?_, ?_⟩
    · split
      · rename_i hc
        exact parseProgram_imageText hne hlen (.inr (.inr ⟨hc, rfl⟩))
      · rename_i hc
        exact parseProgram_crlf_rejected _ (eq_false_of_ne_true hc)
    · rw [loadText, hplain]
  case accepted =>
    obtain ⟨fields, terminator, rfl, hterm, hne, hwords, hlen⟩ := (loaderAcceptsExactlyTheGrammar cfg text image).1 h
    refine ⟨?_, hlen, fun hlast => ?_⟩
    · rintro rfl
      exact hne (List.forall₂_nil_right_iff.1 hwords)
    · have hterm : terminator = [] := by
        rcases hterm with ht | rfl | ⟨-, rfl⟩
        · exact ht
        all_goals simp at hlast
      subst hterm
      exact (loaderAcceptsExactlyTheGrammar cfg _ image).2
        ⟨fields, ['\n'], by simp, .inr (.inl rfl), hne, hwords, hlen⟩

end Sys2Proof.Machine

/-!
# The host and the peers

What each move of the host and of the environment answers, premise by premise.
-/

namespace Sys2Proof.Machine

/-- Settles O48: the memory primitives of `hostGet` and `hostSet`, by the address check. -/
theorem hostGetAndSet : Obligations.HostGetAndSet := by
  refine fun a v rest s _ => ⟨fun hr => ⟨fun hv => ⟨?get, ?set⟩, fun hv op hop => ?invalid⟩, fun hr op hop => ?running⟩
  case get =>
    rw [step_of_host rfl, hostMove, hostGet, if_neg (by exact hr), memRead_of_valid (by exact hv)]
    rfl
  case set =>
    rw [step_of_host rfl, hostMove, hostSet, if_neg (by exact hr), memWrite_of_valid (by exact hv)]
    rfl
  case invalid =>
    rcases hop with rfl | rfl
    · rw [step_of_host rfl, hostMove, hostGet, if_neg (by exact hr), memRead_of_invalid (by exact hv)]
      rfl
    · rw [step_of_host rfl, hostMove, hostSet, if_neg (by exact hr), memWrite_of_invalid (by exact hv)]
      rfl
  case running =>
    rcases hop with rfl | rfl
    · rw [step_of_host rfl, hostMove, hostGet, if_pos (by exact hr)]
    · rw [step_of_host rfl, hostMove, hostSet, if_pos (by exact hr)]

/-- Settles O49, by the run state and the two flags. -/
theorem hostBindsAndRunsOnce : Obligations.HostBindsAndRunsOnce := by
  refine fun rest s _ => ⟨fun hr => ⟨fun hb => ?_, fun hb => ?_, fun hb => ?_, fun hb => ?_, ?_⟩,
    fun hr => ⟨?_, ?_, ?_⟩⟩
  all_goals
    rw [step_of_host rfl]
    simp [hostMove, hostBindInput, hostBindOutput, hostRun, reply, *]

theorem foreignOutSender_iff {s : State} :
    s.foreignOutSender = true ↔ s.outSenders ≠ 0 ∨ s.outBound = false := by
  simp [State.foreignOutSender]

theorem hostHasReceiver_iff {s : State} :
    s.hostHasReceiver = true ↔ s.inBound = false ∨ s.run = .halted ∨ s.run = .faulted := by
  simp [State.hostHasReceiver, or_assoc]

/-- Settles O56, move by move; each clause is one branch of `environmentMove`. -/
theorem peersActOnTheChannels : Obligations.PeersActOnTheChannels := by
  intro v s
  refine ⟨fun hs => ⟨fun hc => ?send, fun hc => ?sendFull, ?clone, ?drop⟩, fun hs e he => ?noSender,
    fun hs => ⟨fun hr hc => ?sendOut, fun hc => ?sendOutRefused, ?cloneOut⟩, fun hs hb e he => ?noForeignSender,
    fun hs => ?dropOut, fun hs => ?dropOutRefused, fun x queue hr hq => ?receive, fun hq => ?receiveRefused,
    fun hr => ?dropReceiver, fun hr => ?dropReceiverRefused, fun x queue hh hq => ?receiveIn,
    fun hh => ?receiveInRefused, fun l => rfl⟩
  case noSender => rcases he with rfl | rfl | rfl <;> simp [move, environmentMove, hs]
  case noForeignSender =>
    have hforeign : s.foreignOutSender = false := by simp [State.foreignOutSender, hs, hb]
    rcases he with rfl | rfl <;> simp [move, environmentMove, hforeign]
  case sendOut => simp [move, environmentMove, foreignOutSender_iff.2 hs, hr, hc]
  case sendOutRefused => rcases hc with hc | hc <;> simp [move, environmentMove, hc]
  case cloneOut => simp [move, environmentMove, foreignOutSender_iff.2 hs]
  case receive => simp [move, environmentMove, hr, hq]
  case receiveRefused => rcases hq with hq | hq <;> simp [move, environmentMove, hq]
  case receiveIn => simp [move, environmentMove, hostHasReceiver_iff.2 hh, hq]
  case receiveInRefused =>
    rcases hh with hq | ⟨hb, hr | hr⟩
    · simp [move, environmentMove, hq]
    · simp [move, environmentMove, State.hostHasReceiver, hb, hr]
    · simp [move, environmentMove, State.hostHasReceiver, hb, hr]
  all_goals simp [move, environmentMove, *]

end Sys2Proof.Machine
end
